-- ==== Sys2Proof/Word.lean ====
section
/-! DEFINITION. The word types of the machine (spec/00_scope.md R6 and R17, spec/10_state.md R30, R33, R36, R40). -/

namespace Sys2Proof

/-- A register, pc, immediate or ALU value: 32 bits, arithmetic modulo 2^32 (R17). -/
abbrev Word := BitVec 32

/-- The smallest addressable unit of memory (spec/20_memory.md R60). -/
abbrev Byte := BitVec 8

/-- A register index 0 to 31, as the five-bit field that names it (R33). -/
abbrev RegIdx := BitVec 5

/-- The cycle counter's value: 64 bits (R40). -/
abbrev CycleCount := BitVec 64

end Sys2Proof
end

