-- ==== Sys2Proof/Config.lean ====
section
/-! DEFINITION. What the implementation fixes (spec/00_scope.md R6 and R7, spec/10_state.md R43) and the free values
(spec/93_implementation_defined.md U3 and U4). -/

namespace Sys2Proof

/-- The configuration latched at construction and never changed after it (R43), with the open parameter of jalr. -/
structure VmConfig where
  /-- MEM_SIZE, the number of bytes of memory (R42; its range is `VmConfig.valid`). -/
  memSize : Nat
  /-- MAX_CYCLES, the cycle budget of `execute()` (D24: 64 bits). -/
  maxCycles : CycleCount
  /-- ENABLE_PROOFS, read by `execute_with_proof()` only (R6, R152). -/
  enableProofs : Bool
  /-- JALR_LINK_BEFORE_READ, an OPEN parameter (D13): true when jalr writes its link before it reads x[rs1]. -/
  jalrLinkBeforeRead : Bool
deriving DecidableEq, Repr

/-- MEM_SIZE lies in [0, 2^32] (spec/20_memory.md R73, D23). -/
abbrev VmConfig.valid (c : VmConfig) : Prop := c.memSize ≤ 2 ^ 32

/-- The configuration of a VirtualMachine constructed without a VmConfig: "4 MiB memory, proofs disabled,
1,000,000-cycle budget" (R7). DESIGN CHOICE, unsafe: jalrLinkBeforeRead is the value the spec recommends (log 2). -/
def VmConfig.default : VmConfig :=
  { memSize := 4194304, maxCycles := 1000000#64, enableProofs := false, jalrLinkBeforeRead := false }

/-- The host's answer to one write syscall, the draw HOST_IO_OK (spec/48_system.md R307, D16). -/
inductive HostAnswer where
  /-- The stream received every byte (HOST_IO_OK true). -/
  | ok
  /-- The host failed after `written` bytes reached the stream (HOST_IO_OK false). -/
  | failed (written : Nat)
deriving DecidableEq, Repr, Inhabited

/-- A FREE VALUE: the host's answer to the n-th write syscall that `State.hostAnswers` does not list (U3 and U4: the
answer and the prefix a failed write leaves are any value). It has no body, so no proof can learn one. DESIGN CHOICE,
safe (logs 3 and 4). -/
opaque Config.hostAnswer : Nat → HostAnswer

end Sys2Proof
end

