-- ==== Sys2Proof/Machine/State.lean ====
section
/-! DEFINITION. The machine's state as plain data, its errors and its reset state (spec/10_state.md, spec/60_exceptions.md). -/

namespace Sys2Proof.Machine

/-- Memory: the bytes of MEM that are not zero, by strictly rising address (spec/10_state.md R42). An address that is not
listed reads as zero, the contents the spec gives memory at construction and after reset (R49, D8; log 8). -/
abbrev Memory := List Host.Cell

/-- Why the syscall handler fails (spec/60_exceptions.md R345). Every one is safe: the spec ends the run there. -/
inductive SyscallReason where
  /-- UnknownNumber(n): x17 is none of 93, 64, 63 (spec/48_system.md R309). Raised by ecall. Safe. -/
  | unknownNumber (n : Word)
  /-- BadFd(fd): a descriptor the write or the read syscall does not accept (R307, R308). Raised by ecall. Safe. -/
  | badFd (fd : Word)
  /-- HostIo: the host's write or flush failed (R307). `written` is what reached stream `fd` before it, an unspecified
  prefix of the bytes (U3): the one effect of a failing step, carried here because an error keeps the state it began in
  (log 4). Raised by ecall. Safe. -/
  | hostIo (fd : Word) (written : List Byte)
deriving DecidableEq, Repr

/-- Why a run fails apart from the rest (R346). -/
inductive ExecReason where
  /-- CycleLimit: CYCLE has reached MAX_CYCLES (spec/40_execution_cycle.md R146). Raised by `execute`. Safe. -/
  | cycleLimit
  /-- Breakpoint: an ebreak was executed (spec/48_system.md R301). Raised by ebreak. Safe. -/
  | breakpoint
deriving DecidableEq, Repr

/-- The error outcomes, the closed set of spec/60_exceptions.md R340. An error ends the step with the state as it was
before it (spec/40_execution_cycle.md R144, R349). Safe, each of them: the spec stops there too. -/
inductive Fault where
  /-- InvalidInstruction(w), code 1 (R341): the fetched word is no instruction. Raised by `step`. Safe. -/
  | invalidInstruction (w : Word)
  /-- MemoryViolation(a), code 2 (R342): an access at start address `a` leaves memory. Raised by the fetch, loads, stores,
  the write syscall and `loadBinary`. Safe. -/
  | memoryViolation (a : Word)
  /-- InvalidRegister(i), code 3 (R343): a register index over 31. Raised by the host's `setRegister` only. Safe. -/
  | invalidRegister (i : Nat)
  /-- LoaderError, code 4 (R344): the external loader's own. Nothing in the block raises it (log 21). Safe. -/
  | loaderError
  /-- SyscallError(reason), code 5 (R345). Raised by ecall. Safe. -/
  | syscallError (r : SyscallReason)
  /-- ExecutionError(reason), code 6 (R346). Raised by ebreak and by `execute`. Safe. -/
  | executionError (r : ExecReason)
  /-- ProofError, code 7 (R347). Raised by `executeWithProof` when proofs are disabled (R152). Safe. -/
  | proofError
  /-- VerificationError, code 8 (R347): the external verifier's own. Nothing in the block raises it (log 21). Safe. -/
  | verificationError
deriving DecidableEq, Repr

/-- Why something has no meaning here. No arm of `exec` and no step answers with one. -/
inductive Refusal where
  /-- The instruction is not modelled. Would be raised by `exec`'s arm alone; no arm does. Safe. -/
  | notModelled (mnemonic : String)
  /-- The record given to `execute_instruction` is not an already decoded instruction: no word decodes to it
  (spec/40_execution_cycle.md R149, spec/30_encoding.md R110; log 25). Raised by the host's `executeInstruction` alone. Safe. -/
  | notDecoded
deriving DecidableEq, Repr

/-- The state: REG, PC, CYCLE and MEM (spec/10_state.md R44, R42), the latched configuration (R43), the two output
streams (R47), and three fields of the model's own (logs 3 and 5). -/
structure State where
  /-- REG[1] to REG[31]; REG[i] is entry i-1. x0 has no storage (R30). -/
  regs : Vector Word 31
  /-- PC (R36). -/
  pc : Word
  /-- CYCLE, the number of completed instructions (R40). -/
  cycle : CycleCount
  /-- MEM (R42). -/
  mem : Memory
  /-- The configuration, which no operation but construction writes (R43, log 1). -/
  cfg : VmConfig
  /-- The bytes written to host stream 1, oldest first (R47, log 7). -/
  stdout : List Byte
  /-- The bytes written to host stream 2, oldest first (R47, log 7). -/
  stderr : List Byte
  /-- The model's own: the exit code when the step just completed answered Halt (spec/40_execution_cycle.md R140), none when
  it answered Continue. No instruction reads it; it is no run-status register (R48, log 5). -/
  halt : Option Word
  /-- The model's own: the host's coming answers to write syscalls, the first answers the next one (log 3). -/
  hostAnswers : List HostAnswer
  /-- The model's own: how many free answers have been drawn from `Config.hostAnswer` (log 3). -/
  hostDraws : Nat
deriving DecidableEq, Repr

/-- The machine after construction with the default configuration (R49, spec/70_reset_and_hazards.md R380, spec/00_scope.md
R7). `hostAnswers` and `hostDraws`: DESIGN CHOICE (log 3); `halt`: DESIGN CHOICE (log 5). -/
def State.reset : State :=
  { regs := Vector.replicate 31 0#32
    pc := 0x00000000#32
    cycle := 0#64
    mem := []
    cfg := VmConfig.default
    stdout := []
    stderr := []
    halt := none
    hostAnswers := []
    hostDraws := 0 }

end Sys2Proof.Machine
end

