-- ==== Sys2Proof/Machine/Flags.lean ====
section
/-! DEFINITION. The hardware has no flags, condition codes or predicates (spec/10_state.md R44): nothing here is state.
These are the comparisons a set-less-than writes to a register and a branch decides on (spec/41_alu_register.md R170,
spec/45_branches.md R251 to R256). -/

namespace Sys2Proof.Machine

/-- `signed(a) < signed(b)`. -/
def signedLt (a b : Word) : Bool := a.slt b

/-- `unsigned(a) < unsigned(b)`. -/
def unsignedLt (a b : Word) : Bool := a.ult b

/-- A truth value as a word: 1 or 0. -/
def boolWord (c : Bool) : Word := if c then 1#32 else 0#32

end Sys2Proof.Machine
end

