-- ==== Sys2Proof/Machine/Alu.lean ====
section
/-! DEFINITION. The ALU, a combinational function of two words with no flag output (spec/41_alu_register.md R170). -/

namespace Sys2Proof.Machine

/-- The ALU's operations (spec/00_scope.md R10). -/
inductive AluOp where
  | add | sub | slt | sltu | and | or | xor | sll | srl | sra
deriving DecidableEq, Repr

/-- The low five bits of an operand: all that reaches a shift. -/
def shiftAmount (b : Word) : Nat := (b &&& 0x1F#32).toNat

/-- `alu(op, a, b)`, the table of R170. -/
def alu (op : AluOp) (a b : Word) : Word :=
  match op with
  | .add => a + b
  | .sub => a - b
  | .slt => boolWord (signedLt a b)
  | .sltu => boolWord (unsignedLt a b)
  | .and => a &&& b
  | .or => a ||| b
  | .xor => a ^^^ b
  | .sll => a <<< shiftAmount b
  | .srl => a >>> shiftAmount b
  | .sra => a.sshiftRight (shiftAmount b)

end Sys2Proof.Machine
end

