-- ==== Sys2Proof/WellFormed.lean ====
section
/-! DEFINITION. Which decoded instructions an encoding can carry: each immediate in the range its format gives it
(spec/30_encoding.md R93 to R97). Register indices and shift amounts are five-bit values and always in range (R33, R98). -/

namespace Sys2Proof

/-- An I-type or S-type immediate: -2048 to 2047 (R93, R94). -/
def fitsImm12 (imm : Word) : Bool := decide (-2048 ≤ imm.toInt) && decide (imm.toInt ≤ 2047)

/-- A B-type offset: -4096 to 4094 and even (R95). -/
def fitsBranch (imm : Word) : Bool :=
  decide (-4096 ≤ imm.toInt) && decide (imm.toInt ≤ 4094) && decide (imm.toInt % 2 = 0)

/-- A J-type offset: -1048576 to 1048574 and even (R97). -/
def fitsJump (imm : Word) : Bool :=
  decide (-1048576 ≤ imm.toInt) && decide (imm.toInt ≤ 1048574) && decide (imm.toInt % 2 = 0)

/-- A U-type immediate: the low twelve bits zero (R96). -/
def fitsUpper (imm : Word) : Bool := decide (imm.toNat % 4096 = 0)

/-- The operands are ones the instruction's format can encode. -/
def Instr.wf : Instr → Bool
  | .add _ _ _ => true
  | .sub _ _ _ => true
  | .sll _ _ _ => true
  | .slt _ _ _ => true
  | .sltu _ _ _ => true
  | .xor _ _ _ => true
  | .srl _ _ _ => true
  | .sra _ _ _ => true
  | .or _ _ _ => true
  | .and _ _ _ => true
  | .addi _ _ imm => fitsImm12 imm
  | .slti _ _ imm => fitsImm12 imm
  | .sltiu _ _ imm => fitsImm12 imm
  | .xori _ _ imm => fitsImm12 imm
  | .ori _ _ imm => fitsImm12 imm
  | .andi _ _ imm => fitsImm12 imm
  | .slli _ _ _ => true
  | .srli _ _ _ => true
  | .srai _ _ _ => true
  | .lb _ _ imm => fitsImm12 imm
  | .lh _ _ imm => fitsImm12 imm
  | .lw _ _ imm => fitsImm12 imm
  | .lbu _ _ imm => fitsImm12 imm
  | .lhu _ _ imm => fitsImm12 imm
  | .sb _ _ imm => fitsImm12 imm
  | .sh _ _ imm => fitsImm12 imm
  | .sw _ _ imm => fitsImm12 imm
  | .beq _ _ imm => fitsBranch imm
  | .bne _ _ imm => fitsBranch imm
  | .blt _ _ imm => fitsBranch imm
  | .bge _ _ imm => fitsBranch imm
  | .bltu _ _ imm => fitsBranch imm
  | .bgeu _ _ imm => fitsBranch imm
  | .jal _ imm => fitsJump imm
  | .jalr _ _ imm => fitsImm12 imm
  | .lui _ imm => fitsUpper imm
  | .auipc _ imm => fitsUpper imm
  | .ecall => true
  | .ebreak => true

end Sys2Proof
end

