-- ==== Sys2Proof/Decode.lean ====
section
/-! DEFINITION. The decoder, total on every word and rejecting by name (spec/30_encoding.md R90 to R116), and after it
the encoder written from the same layouts (R92). Opcode, funct3 and funct7 values and the placement of immediate bits
are the RISC-V base encoding, PRESUMED, unsafe (log 9). Fixed fields are compared whole (D4, log 10). -/

namespace Sys2Proof

/-! ### Byte order (spec/20_memory.md R63) -/

/-- The little-endian value of a byte string: the first byte is the lowest. -/
def leWord : List Byte → Word
  | [] => 0#32
  | b :: bs => b.setWidth 32 ||| (leWord bs <<< 8)

/-- The low `n` bytes of a word, lowest first. -/
def leBytes (v : Word) : Nat → List Byte
  | 0 => []
  | n + 1 => v.setWidth 8 :: leBytes (v >>> 8) n

/-! ### Fields and immediates -/

/-- `w[lo+len-1 : lo]` (spec/00_scope.md R16). -/
def field (w : Word) (lo len : Nat) : BitVec len := w.extractLsb' lo len

/-- The field positions of R91. -/
def opcodeOf (w : Word) : BitVec 7 := field w 0 7
def rdOf (w : Word) : RegIdx := field w 7 5
def funct3Of (w : Word) : BitVec 3 := field w 12 3
def rs1Of (w : Word) : RegIdx := field w 15 5
def rs2Of (w : Word) : RegIdx := field w 20 5
def funct7Of (w : Word) : BitVec 7 := field w 25 7

/-- The unsigned shift amount of slli, srli and srai (R98). -/
def shamtOf (w : Word) : BitVec 5 := field w 20 5

/-- `sext_12(w[31:20])` (R93). -/
def immIOf (w : Word) : Word := (field w 20 12).signExtend 32

/-- `sext_12({w[31:25], w[11:7]})` (R94). -/
def immSOf (w : Word) : Word := (field w 25 7 ++ field w 7 5 : BitVec 12).signExtend 32

/-- `sext_13({w[31], w[7], w[30:25], w[11:8], 0})` (R95). -/
def immBOf (w : Word) : Word :=
  (field w 31 1 ++ field w 7 1 ++ field w 25 6 ++ field w 8 4 ++ 0#1 : BitVec 13).signExtend 32

/-- `{w[31:12], 0x000}` (R96). -/
def immUOf (w : Word) : Word := field w 12 20 ++ 0#12

/-- `sext_21({w[31], w[19:12], w[20], w[30:21], 0})` (R97). -/
def immJOf (w : Word) : Word :=
  (field w 31 1 ++ field w 12 8 ++ field w 20 1 ++ field w 21 10 ++ 0#1 : BitVec 21).signExtend 32

/-! ### The decode function (R108) -/

/-- Why a decode fails. -/
inductive DecodeError where
  /-- The word is none of the 39 instructions; it carries the offending word (R109, R112). -/
  | invalidInstruction (w : Word)
  /-- Fewer than four bytes were given to `decodeBytes`. DESIGN CHOICE, safe: no step raises it (log 20). -/
  | truncated
deriving DecidableEq, Repr

/-- OP, by funct7 and funct3 (R101). -/
def decodeOp (w : Word) : Except DecodeError Instr :=
  if funct7Of w = 0x00#7 then
    if funct3Of w = 0#3 then .ok (.add (rdOf w) (rs1Of w) (rs2Of w))
    else if funct3Of w = 1#3 then .ok (.sll (rdOf w) (rs1Of w) (rs2Of w))
    else if funct3Of w = 2#3 then .ok (.slt (rdOf w) (rs1Of w) (rs2Of w))
    else if funct3Of w = 3#3 then .ok (.sltu (rdOf w) (rs1Of w) (rs2Of w))
    else if funct3Of w = 4#3 then .ok (.xor (rdOf w) (rs1Of w) (rs2Of w))
    else if funct3Of w = 5#3 then .ok (.srl (rdOf w) (rs1Of w) (rs2Of w))
    else if funct3Of w = 6#3 then .ok (.or (rdOf w) (rs1Of w) (rs2Of w))
    else if funct3Of w = 7#3 then .ok (.and (rdOf w) (rs1Of w) (rs2Of w))
    else .error (.invalidInstruction w)
  else if funct7Of w = 0x20#7 then
    if funct3Of w = 0#3 then .ok (.sub (rdOf w) (rs1Of w) (rs2Of w))
    else if funct3Of w = 5#3 then .ok (.sra (rdOf w) (rs1Of w) (rs2Of w))
    else .error (.invalidInstruction w)
  else .error (.invalidInstruction w)

/-- OP-IMM, by funct3 and for the shifts by funct7 (R102). -/
def decodeOpImm (w : Word) : Except DecodeError Instr :=
  if funct3Of w = 0#3 then .ok (.addi (rdOf w) (rs1Of w) (immIOf w))
  else if funct3Of w = 2#3 then .ok (.slti (rdOf w) (rs1Of w) (immIOf w))
  else if funct3Of w = 3#3 then .ok (.sltiu (rdOf w) (rs1Of w) (immIOf w))
  else if funct3Of w = 4#3 then .ok (.xori (rdOf w) (rs1Of w) (immIOf w))
  else if funct3Of w = 6#3 then .ok (.ori (rdOf w) (rs1Of w) (immIOf w))
  else if funct3Of w = 7#3 then .ok (.andi (rdOf w) (rs1Of w) (immIOf w))
  else if funct3Of w = 1#3 then
    if funct7Of w = 0x00#7 then .ok (.slli (rdOf w) (rs1Of w) (shamtOf w))
    else .error (.invalidInstruction w)
  else if funct3Of w = 5#3 then
    if funct7Of w = 0x00#7 then .ok (.srli (rdOf w) (rs1Of w) (shamtOf w))
    else if funct7Of w = 0x20#7 then .ok (.srai (rdOf w) (rs1Of w) (shamtOf w))
    else .error (.invalidInstruction w)
  else .error (.invalidInstruction w)

/-- LOAD, by funct3 (R103). -/
def decodeLoad (w : Word) : Except DecodeError Instr :=
  if funct3Of w = 0#3 then .ok (.lb (rdOf w) (rs1Of w) (immIOf w))
  else if funct3Of w = 1#3 then .ok (.lh (rdOf w) (rs1Of w) (immIOf w))
  else if funct3Of w = 2#3 then .ok (.lw (rdOf w) (rs1Of w) (immIOf w))
  else if funct3Of w = 4#3 then .ok (.lbu (rdOf w) (rs1Of w) (immIOf w))
  else if funct3Of w = 5#3 then .ok (.lhu (rdOf w) (rs1Of w) (immIOf w))
  else .error (.invalidInstruction w)

/-- STORE, by funct3 (R104). -/
def decodeStore (w : Word) : Except DecodeError Instr :=
  if funct3Of w = 0#3 then .ok (.sb (rs1Of w) (rs2Of w) (immSOf w))
  else if funct3Of w = 1#3 then .ok (.sh (rs1Of w) (rs2Of w) (immSOf w))
  else if funct3Of w = 2#3 then .ok (.sw (rs1Of w) (rs2Of w) (immSOf w))
  else .error (.invalidInstruction w)

/-- BRANCH, by funct3 (R105). -/
def decodeBranch (w : Word) : Except DecodeError Instr :=
  if funct3Of w = 0#3 then .ok (.beq (rs1Of w) (rs2Of w) (immBOf w))
  else if funct3Of w = 1#3 then .ok (.bne (rs1Of w) (rs2Of w) (immBOf w))
  else if funct3Of w = 4#3 then .ok (.blt (rs1Of w) (rs2Of w) (immBOf w))
  else if funct3Of w = 5#3 then .ok (.bge (rs1Of w) (rs2Of w) (immBOf w))
  else if funct3Of w = 6#3 then .ok (.bltu (rs1Of w) (rs2Of w) (immBOf w))
  else if funct3Of w = 7#3 then .ok (.bgeu (rs1Of w) (rs2Of w) (immBOf w))
  else .error (.invalidInstruction w)

/-- JALR needs funct3 000 (R106). -/
def decodeJalr (w : Word) : Except DecodeError Instr :=
  if funct3Of w = 0#3 then .ok (.jalr (rdOf w) (rs1Of w) (immIOf w))
  else .error (.invalidInstruction w)

/-- SYSTEM: ecall and ebreak by their exact words only (R107). -/
def decodeSystem (w : Word) : Except DecodeError Instr :=
  if w = 0x00000073#32 then .ok .ecall
  else if w = 0x00100073#32 then .ok .ebreak
  else .error (.invalidInstruction w)

/-- Decode a word: dispatch on the major opcode (R100), then the refinement of each (R108). Pure and total (R109). -/
def decode (w : Word) : Except DecodeError Instr :=
  if opcodeOf w = 0x33#7 then decodeOp w
  else if opcodeOf w = 0x13#7 then decodeOpImm w
  else if opcodeOf w = 0x03#7 then decodeLoad w
  else if opcodeOf w = 0x23#7 then decodeStore w
  else if opcodeOf w = 0x63#7 then decodeBranch w
  else if opcodeOf w = 0x6F#7 then .ok (.jal (rdOf w) (immJOf w))
  else if opcodeOf w = 0x67#7 then decodeJalr w
  else if opcodeOf w = 0x37#7 then .ok (.lui (rdOf w) (immUOf w))
  else if opcodeOf w = 0x17#7 then .ok (.auipc (rdOf w) (immUOf w))
  else if opcodeOf w = 0x73#7 then decodeSystem w
  else .error (.invalidInstruction w)

/-- Decode the instruction at the head of a byte string: one little-endian word (R90, R116), and the bytes after it. -/
def decodeBytes : List Byte → Except DecodeError (Instr × List Byte)
  | b0 :: b1 :: b2 :: b3 :: rest =>
    match decode (leWord [b0, b1, b2, b3]) with
    | .ok i => .ok (i, rest)
    | .error e => .error e
  | _ => .error .truncated

/-! ### The encoder, by format (R92) -/

def encodeR (f7 : BitVec 7) (f3 : BitVec 3) (op : BitVec 7) (rd rs1 rs2 : RegIdx) : Word :=
  f7 ++ rs2 ++ rs1 ++ f3 ++ rd ++ op

def encodeI (f3 : BitVec 3) (op : BitVec 7) (rd rs1 : RegIdx) (imm : Word) : Word :=
  field imm 0 12 ++ rs1 ++ f3 ++ rd ++ op

def encodeS (f3 : BitVec 3) (op : BitVec 7) (rs1 rs2 : RegIdx) (imm : Word) : Word :=
  field imm 5 7 ++ rs2 ++ rs1 ++ f3 ++ field imm 0 5 ++ op

def encodeB (f3 : BitVec 3) (op : BitVec 7) (rs1 rs2 : RegIdx) (imm : Word) : Word :=
  field imm 12 1 ++ field imm 5 6 ++ rs2 ++ rs1 ++ f3 ++ field imm 1 4 ++ field imm 11 1 ++ op

def encodeU (op : BitVec 7) (rd : RegIdx) (imm : Word) : Word :=
  field imm 12 20 ++ rd ++ op

def encodeJ (op : BitVec 7) (rd : RegIdx) (imm : Word) : Word :=
  field imm 20 1 ++ field imm 1 10 ++ field imm 11 1 ++ field imm 12 8 ++ rd ++ op

/-- The word of a well-formed instruction. -/
def encode : Instr → Word
  | .add rd rs1 rs2 => encodeR 0x00#7 0#3 0x33#7 rd rs1 rs2
  | .sub rd rs1 rs2 => encodeR 0x20#7 0#3 0x33#7 rd rs1 rs2
  | .sll rd rs1 rs2 => encodeR 0x00#7 1#3 0x33#7 rd rs1 rs2
  | .slt rd rs1 rs2 => encodeR 0x00#7 2#3 0x33#7 rd rs1 rs2
  | .sltu rd rs1 rs2 => encodeR 0x00#7 3#3 0x33#7 rd rs1 rs2
  | .xor rd rs1 rs2 => encodeR 0x00#7 4#3 0x33#7 rd rs1 rs2
  | .srl rd rs1 rs2 => encodeR 0x00#7 5#3 0x33#7 rd rs1 rs2
  | .sra rd rs1 rs2 => encodeR 0x20#7 5#3 0x33#7 rd rs1 rs2
  | .or rd rs1 rs2 => encodeR 0x00#7 6#3 0x33#7 rd rs1 rs2
  | .and rd rs1 rs2 => encodeR 0x00#7 7#3 0x33#7 rd rs1 rs2
  | .addi rd rs1 imm => encodeI 0#3 0x13#7 rd rs1 imm
  | .slti rd rs1 imm => encodeI 2#3 0x13#7 rd rs1 imm
  | .sltiu rd rs1 imm => encodeI 3#3 0x13#7 rd rs1 imm
  | .xori rd rs1 imm => encodeI 4#3 0x13#7 rd rs1 imm
  | .ori rd rs1 imm => encodeI 6#3 0x13#7 rd rs1 imm
  | .andi rd rs1 imm => encodeI 7#3 0x13#7 rd rs1 imm
  | .slli rd rs1 shamt => encodeR 0x00#7 1#3 0x13#7 rd rs1 shamt
  | .srli rd rs1 shamt => encodeR 0x00#7 5#3 0x13#7 rd rs1 shamt
  | .srai rd rs1 shamt => encodeR 0x20#7 5#3 0x13#7 rd rs1 shamt
  | .lb rd rs1 imm => encodeI 0#3 0x03#7 rd rs1 imm
  | .lh rd rs1 imm => encodeI 1#3 0x03#7 rd rs1 imm
  | .lw rd rs1 imm => encodeI 2#3 0x03#7 rd rs1 imm
  | .lbu rd rs1 imm => encodeI 4#3 0x03#7 rd rs1 imm
  | .lhu rd rs1 imm => encodeI 5#3 0x03#7 rd rs1 imm
  | .sb rs1 rs2 imm => encodeS 0#3 0x23#7 rs1 rs2 imm
  | .sh rs1 rs2 imm => encodeS 1#3 0x23#7 rs1 rs2 imm
  | .sw rs1 rs2 imm => encodeS 2#3 0x23#7 rs1 rs2 imm
  | .beq rs1 rs2 imm => encodeB 0#3 0x63#7 rs1 rs2 imm
  | .bne rs1 rs2 imm => encodeB 1#3 0x63#7 rs1 rs2 imm
  | .blt rs1 rs2 imm => encodeB 4#3 0x63#7 rs1 rs2 imm
  | .bge rs1 rs2 imm => encodeB 5#3 0x63#7 rs1 rs2 imm
  | .bltu rs1 rs2 imm => encodeB 6#3 0x63#7 rs1 rs2 imm
  | .bgeu rs1 rs2 imm => encodeB 7#3 0x63#7 rs1 rs2 imm
  | .jal rd imm => encodeJ 0x6F#7 rd imm
  | .jalr rd rs1 imm => encodeI 0#3 0x67#7 rd rs1 imm
  | .lui rd imm => encodeU 0x37#7 rd imm
  | .auipc rd imm => encodeU 0x17#7 rd imm
  | .ecall => 0x00000073#32
  | .ebreak => 0x00100073#32

/-! ### The opcode table's numbering of an instruction's bits -/

/-- The instruction the decoder reads from the bytes whose little-endian value is `w` on its low `nbits` bits, zero above. -/
def decodeTableWord (nbits w : Nat) : Option Instr :=
  match decodeBytes (leBytes (BitVec.ofNat 32 (w % 2 ^ nbits)) 4) with
  | .ok (i, _) => some i
  | .error _ => none

end Sys2Proof
end

