-- ==== Sys2Proof/Machine/Ops.lean ====
section
/-! DEFINITION. The named operations over registers, memory, control and the host streams, and raising an error
(spec/00_scope.md R18 to R20, spec/10_state.md, spec/20_memory.md). Every meaning is written over these. -/

namespace Sys2Proof.Machine

/-- What executing an instruction answers. -/
abbrev Result := Host.Outcome State Fault Refusal

/-- `raise E(info)`: the step ends with the error and no state is written (R20, spec/60_exceptions.md R349). The hardware
has no trap entry: no register is saved, no vector taken, and nothing returns from an error (R348, R350). -/
def raise (e : Fault) : Result := .fault e

/-- The numeric code of an error's kind (R340, D18): a label only. -/
def faultCode : Fault → Nat
  | .invalidInstruction _ => 1
  | .memoryViolation _ => 2
  | .invalidRegister _ => 3
  | .loaderError => 4
  | .syscallError _ => 5
  | .executionError _ => 6
  | .proofError => 7
  | .verificationError => 8

/-! ### Registers (spec/10_state.md R30 to R32) -/

/-- The entry of `regs` that holds REG[i], for i in 1 to 31. -/
def regSlot (i : RegIdx) : Fin 31 := ⟨i.toNat - 1, by have := i.isLt; omega⟩

/-- `x[i]`: 0 for x0, else REG[i] (R31). -/
def readReg (s : State) (i : RegIdx) : Word := if i = 0#5 then 0#32 else s.regs[regSlot i]

/-- `x[i] <- v`: nothing for x0, else REG[i] is set (R32). -/
def writeReg (s : State) (i : RegIdx) (v : Word) : State :=
  if i = 0#5 then s else { s with regs := s.regs.set (regSlot i) v (regSlot i).isLt }

/-! ### One byte of memory, and the canonical form -/

/-- The byte at an address; an unlisted address reads as zero (R49, D8). -/
def Memory.read : Memory → Nat → Byte
  | [], _ => 0#8
  | (k, b) :: m, a => if k = a then b else if a < k then 0#8 else Memory.read m a

/-- A cell in front of a memory, left out when its byte is zero. -/
def Memory.cons (a : Nat) (b : Byte) (m : Memory) : Memory := if b = 0#8 then m else (a, b) :: m

/-- Set the byte at an address, keeping the canonical form. -/
def Memory.write : Memory → Nat → Byte → Memory
  | [], a, b => Memory.cons a b []
  | (k, c) :: m, a, b =>
    if a < k then Memory.cons a b ((k, c) :: m)
    else if a = k then Memory.cons a b m
    else (k, c) :: Memory.write m a b

/-- Every listed address is at least `lo`, the addresses rise strictly, and no listed byte is zero. -/
def Memory.wfFrom : Nat → Memory → Bool
  | _, [] => true
  | lo, (k, b) :: m => decide (lo ≤ k) && decide (b ≠ 0#8) && Memory.wfFrom (k + 1) m

/-- The canonical form: strictly rising addresses, no listed zero. -/
def Memory.wf (m : Memory) : Bool := Memory.wfFrom 0 m

/-- Every listed address lies below `size`. -/
def Memory.within (size : Nat) (m : Memory) : Bool := m.all fun c => decide (c.1 < size)

/-- The `n` bytes from address `a` up. -/
def Memory.readBytes (m : Memory) (a : Nat) : Nat → List Byte
  | 0 => []
  | n + 1 => Memory.read m a :: Memory.readBytes m (a + 1) n

/-- Set consecutive bytes from address `a` up. -/
def Memory.writeBytes (m : Memory) (a : Nat) : List Byte → Memory
  | [] => m
  | b :: bs => Memory.writeBytes (Memory.write m a b) (a + 1) bs

/-! ### Checked accesses (spec/20_memory.md R61 to R63, R79) -/

/-- An access of `w` bytes at `a` is permitted iff `a + w <= MEM_SIZE`, over unbounded integers (R61, D6; log 12). DESIGN
CHOICE, unsafe (log 27): with MEM_SIZE = 0 this permits an access of no byte at address 0, as R61 says, although R73 says
that every access then fails. -/
abbrev inBounds (s : State) (a : Word) (w : Nat) : Prop := a.toNat + w ≤ s.cfg.memSize

/-- A bulk read of `n` bytes at `a`: the start address is what a violation carries (R62, R79, D7). -/
def loadBytes (s : State) (a : Word) (n : Nat) : Except Fault (List Byte) :=
  if inBounds s a n then .ok (s.mem.readBytes a.toNat n) else .error (.memoryViolation a)

/-- A bulk write at `a`: all the bytes or none (R62, R79). -/
def storeBytes (s : State) (a : Word) (bs : List Byte) : Except Fault State :=
  if inBounds s a bs.length then .ok { s with mem := s.mem.writeBytes a.toNat bs } else .error (.memoryViolation a)

/-- `MemRead(addr, n)` (spec/00_scope.md R19): the little-endian value of `n` bytes, for n up to 4. -/
def memRead (s : State) (a : Word) (n : Nat) : Except Fault Word :=
  match loadBytes s a n with
  | .ok bs => .ok (leWord bs)
  | .error e => .error e

/-- `MemWrite(addr, n, v)` (R19): the low `n` bytes of `v`, lowest first. -/
def memWrite (s : State) (a : Word) (n : Nat) (v : Word) : Except Fault State := storeBytes s a (leBytes v n)

/-! ### Control (spec/00_scope.md R20, spec/40_execution_cycle.md R142) -/

/-- `jump(t)`: PC <- t, CYCLE <- CYCLE + 1, and the step answers Continue. -/
def jump (s : State) (t : Word) : State := { s with pc := t, cycle := s.cycle + 1#64, halt := none }

/-- `advance()`: PC <- PC + 4 modulo 2^32 (R39, D9), CYCLE <- CYCLE + 1 modulo 2^64 (R41, D19). -/
def advance (s : State) : State := jump s (s.pc + 4#32)

/-- The step answers as the handler says: Halt with an exit code, or Continue (R140). -/
def withHalt (s : State) (h : Option Word) : State := { s with halt := h }

/-- Write a register, then `advance()`: how every instruction of the arithmetic, load and upper-immediate families ends. -/
def writeAndAdvance (s : State) (rd : RegIdx) (v : Word) : Result := .next (advance (writeReg s rd v))

/-! ### Fetch (spec/20_memory.md R64) -/

/-- The instruction word at PC, or MemoryViolation(PC). -/
def fetch (s : State) : Except Fault Word := memRead s s.pc 4

/-- The error a failed decode raises (spec/60_exceptions.md R341). A whole word is never truncated (log 20). -/
def decodeFault (w : Word) : DecodeError → Fault
  | .invalidInstruction v => .invalidInstruction v
  | .truncated => .invalidInstruction w

/-! ### Host streams (spec/48_system.md R307, R311) -/

/-- Append bytes to host stream 1 or 2; the handler calls it with no other descriptor. -/
def emit (s : State) (fd : Word) (bs : List Byte) : State :=
  if fd = 1#32 then { s with stdout := s.stdout ++ bs }
  else if fd = 2#32 then { s with stderr := s.stderr ++ bs }
  else s

/-- The host's answer to the next write syscall: listed, or a free value (D16, U4; log 3). -/
def hostAnswer (s : State) : HostAnswer :=
  match s.hostAnswers with
  | a :: _ => a
  | [] => Config.hostAnswer s.hostDraws

/-- That answer is used up. -/
def dropAnswer (s : State) : State :=
  match s.hostAnswers with
  | _ :: as => { s with hostAnswers := as }
  | [] => { s with hostDraws := s.hostDraws + 1 }

end Sys2Proof.Machine
end

