-- ==== Sys2Proof/Machine/Operands.lean ====
section
/-! DEFINITION. The operand forms: the effective address of loads and stores, the shift amount of the immediate shifts,
and the extensions of loaded values (spec/20_memory.md R69, spec/30_encoding.md R98, spec/43_loads.md R210). -/

namespace Sys2Proof.Machine

/-- `ea = x[rs1] + imm` modulo 2^32 (R69). -/
def effectiveAddress (s : State) (rs1 : RegIdx) (imm : Word) : Word := readReg s rs1 + imm

/-- A five-bit shift amount as an ALU operand, zero-extended (R98). -/
def shamtWord (shamt : BitVec 5) : Word := shamt.setWidth 32

/-- `sext_8`, of lb. -/
def sextByte (v : Word) : Word := (v.setWidth 8).signExtend 32

/-- `sext_16`, of lh. -/
def sextHalf (v : Word) : Word := (v.setWidth 16).signExtend 32

/-- `zext_8`, of lbu. -/
def zextByte (v : Word) : Word := (v.setWidth 8).setWidth 32

/-- `zext_16`, of lhu. -/
def zextHalf (v : Word) : Word := (v.setWidth 16).setWidth 32

end Sys2Proof.Machine
end

