-- ==== Sys2Proof/Machine/AluImmediate.lean ====
section
/-! DEFINITION. Register-immediate arithmetic (spec/42_alu_immediate.md). -/

namespace Sys2Proof.Machine

/-- Common to the family: x[rs1] is read, rd is written with the ALU's result, the pc advances (R190). -/
def aluImmediate (op : AluOp) (rd rs1 : RegIdx) (imm : Word) (s : State) : Result :=
  writeAndAdvance s rd (alu op (readReg s rs1) imm)

/-- ADDI (R191). -/
def execAddi (rd rs1 : RegIdx) (imm : Word) (s : State) : Result := aluImmediate .add rd rs1 imm s

/-- SLTI (R192). -/
def execSlti (rd rs1 : RegIdx) (imm : Word) (s : State) : Result := aluImmediate .slt rd rs1 imm s

/-- SLTIU, the sign-extended immediate compared as unsigned (R193). -/
def execSltiu (rd rs1 : RegIdx) (imm : Word) (s : State) : Result := aluImmediate .sltu rd rs1 imm s

/-- XORI (R194). -/
def execXori (rd rs1 : RegIdx) (imm : Word) (s : State) : Result := aluImmediate .xor rd rs1 imm s

/-- ORI (R195). -/
def execOri (rd rs1 : RegIdx) (imm : Word) (s : State) : Result := aluImmediate .or rd rs1 imm s

/-- ANDI (R196). -/
def execAndi (rd rs1 : RegIdx) (imm : Word) (s : State) : Result := aluImmediate .and rd rs1 imm s

/-- SLLI, by a five-bit amount (R197). -/
def execSlli (rd rs1 : RegIdx) (shamt : BitVec 5) (s : State) : Result :=
  aluImmediate .sll rd rs1 (shamtWord shamt) s

/-- SRLI, by a five-bit amount (R198). -/
def execSrli (rd rs1 : RegIdx) (shamt : BitVec 5) (s : State) : Result :=
  aluImmediate .srl rd rs1 (shamtWord shamt) s

/-- SRAI, by a five-bit amount (R199). -/
def execSrai (rd rs1 : RegIdx) (shamt : BitVec 5) (s : State) : Result :=
  aluImmediate .sra rd rs1 (shamtWord shamt) s

end Sys2Proof.Machine
end

