-- ==== Sys2Proof/Machine/AluRegister.lean ====
section
/-! DEFINITION. Register-register arithmetic (spec/41_alu_register.md). -/

namespace Sys2Proof.Machine

/-- Common to the family: both sources are read, rd is written with the ALU's result, the pc advances (R171). -/
def aluRegister (op : AluOp) (rd rs1 rs2 : RegIdx) (s : State) : Result :=
  writeAndAdvance s rd (alu op (readReg s rs1) (readReg s rs2))

/-- ADD: the sum modulo 2^32 (R172). -/
def execAdd (rd rs1 rs2 : RegIdx) (s : State) : Result := aluRegister .add rd rs1 rs2 s

/-- SUB: the difference modulo 2^32 (R173). -/
def execSub (rd rs1 rs2 : RegIdx) (s : State) : Result := aluRegister .sub rd rs1 rs2 s

/-- SLL: left shift by x[rs2] & 31 (R174). -/
def execSll (rd rs1 rs2 : RegIdx) (s : State) : Result := aluRegister .sll rd rs1 rs2 s

/-- SLT: 1 if signed less, else 0 (R175). -/
def execSlt (rd rs1 rs2 : RegIdx) (s : State) : Result := aluRegister .slt rd rs1 rs2 s

/-- SLTU: 1 if unsigned less, else 0 (R176). -/
def execSltu (rd rs1 rs2 : RegIdx) (s : State) : Result := aluRegister .sltu rd rs1 rs2 s

/-- XOR: bitwise exclusive or (R177). -/
def execXor (rd rs1 rs2 : RegIdx) (s : State) : Result := aluRegister .xor rd rs1 rs2 s

/-- SRL: logical right shift (R178). -/
def execSrl (rd rs1 rs2 : RegIdx) (s : State) : Result := aluRegister .srl rd rs1 rs2 s

/-- SRA: arithmetic right shift (R179). -/
def execSra (rd rs1 rs2 : RegIdx) (s : State) : Result := aluRegister .sra rd rs1 rs2 s

/-- OR: bitwise or (R180). -/
def execOr (rd rs1 rs2 : RegIdx) (s : State) : Result := aluRegister .or rd rs1 rs2 s

/-- AND: bitwise and (R181). -/
def execAnd (rd rs1 rs2 : RegIdx) (s : State) : Result := aluRegister .and rd rs1 rs2 s

end Sys2Proof.Machine
end

