-- ==== Sys2Proof/Machine/Branches.lean ====
section
/-! DEFINITION. Conditional branches (spec/45_branches.md). -/

namespace Sys2Proof.Machine

/-- Common to every branch (R250): to pc + imm when taken, else to pc + 4; the target is not checked. -/
def branchOn (cond : Word → Word → Bool) (rs1 rs2 : RegIdx) (imm : Word) (s : State) : Result :=
  if cond (readReg s rs1) (readReg s rs2) then .next (jump s (s.pc + imm)) else .next (advance s)

/-- BEQ (R251). -/
def execBeq (rs1 rs2 : RegIdx) (imm : Word) (s : State) : Result :=
  branchOn (fun a b => a == b) rs1 rs2 imm s

/-- BNE (R252). -/
def execBne (rs1 rs2 : RegIdx) (imm : Word) (s : State) : Result :=
  branchOn (fun a b => a != b) rs1 rs2 imm s

/-- BLT (R253). -/
def execBlt (rs1 rs2 : RegIdx) (imm : Word) (s : State) : Result :=
  branchOn (fun a b => signedLt a b) rs1 rs2 imm s

/-- BGE (R254). -/
def execBge (rs1 rs2 : RegIdx) (imm : Word) (s : State) : Result :=
  branchOn (fun a b => !signedLt a b) rs1 rs2 imm s

/-- BLTU (R255). -/
def execBltu (rs1 rs2 : RegIdx) (imm : Word) (s : State) : Result :=
  branchOn (fun a b => unsignedLt a b) rs1 rs2 imm s

/-- BGEU (R256). -/
def execBgeu (rs1 rs2 : RegIdx) (imm : Word) (s : State) : Result :=
  branchOn (fun a b => !unsignedLt a b) rs1 rs2 imm s

end Sys2Proof.Machine
end

