-- ==== Sys2Proof/Machine/Jumps.lean ====
section
/-! DEFINITION. Unconditional jumps (spec/46_jumps.md). -/

namespace Sys2Proof.Machine

/-- The link, pc + 4 modulo 2^32. -/
def linkAddress (s : State) : Word := s.pc + 4#32

/-- A jalr target: the sum with bit 0 cleared, not checked (R271, C6). -/
def jalrTarget (base imm : Word) : Word := (base + imm) &&& 0xFFFFFFFE#32

/-- JAL (R270): the link into rd, then to pc + imm. -/
def execJal (rd : RegIdx) (imm : Word) (s : State) : Result :=
  .next (jump (writeReg s rd (linkAddress s)) (s.pc + imm))

/-- JALR (R271): the link into rd; the target reads x[rs1] before the link is written or after it, as the parameter
JALR_LINK_BEFORE_READ says (D13, log 2). -/
def execJalr (rd rs1 : RegIdx) (imm : Word) (s : State) : Result :=
  if s.cfg.jalrLinkBeforeRead then
    .next (jump (writeReg s rd (linkAddress s)) (jalrTarget (readReg (writeReg s rd (linkAddress s)) rs1) imm))
  else
    .next (jump (writeReg s rd (linkAddress s)) (jalrTarget (readReg s rs1) imm))

end Sys2Proof.Machine
end

