-- ==== Sys2Proof/Machine/Loads.lean ====
section
/-! DEFINITION. Loads (spec/43_loads.md). -/

namespace Sys2Proof.Machine

/-- Common to every load (R210): the access and its bounds check are made whatever rd is; on a violation nothing is
written. -/
def loadInto (n : Nat) (ext : Word → Word) (rd rs1 : RegIdx) (imm : Word) (s : State) : Result :=
  match memRead s (effectiveAddress s rs1 imm) n with
  | .ok v => writeAndAdvance s rd (ext v)
  | .error e => raise e

/-- LB (R211). -/
def execLb (rd rs1 : RegIdx) (imm : Word) (s : State) : Result := loadInto 1 sextByte rd rs1 imm s

/-- LH (R212). -/
def execLh (rd rs1 : RegIdx) (imm : Word) (s : State) : Result := loadInto 2 sextHalf rd rs1 imm s

/-- LW (R213). -/
def execLw (rd rs1 : RegIdx) (imm : Word) (s : State) : Result := loadInto 4 (fun v => v) rd rs1 imm s

/-- LBU (R214). -/
def execLbu (rd rs1 : RegIdx) (imm : Word) (s : State) : Result := loadInto 1 zextByte rd rs1 imm s

/-- LHU (R215). -/
def execLhu (rd rs1 : RegIdx) (imm : Word) (s : State) : Result := loadInto 2 zextHalf rd rs1 imm s

end Sys2Proof.Machine
end

