-- ==== Sys2Proof/Machine/Stores.lean ====
section
/-! DEFINITION. Stores (spec/44_stores.md). -/

namespace Sys2Proof.Machine

/-- Common to every store (R230): the low `n` bytes of x[rs2] at the effective address, all or none. -/
def storeFrom (n : Nat) (rs1 rs2 : RegIdx) (imm : Word) (s : State) : Result :=
  match memWrite s (effectiveAddress s rs1 imm) n (readReg s rs2) with
  | .ok t => .next (advance t)
  | .error e => raise e

/-- SB (R231). -/
def execSb (rs1 rs2 : RegIdx) (imm : Word) (s : State) : Result := storeFrom 1 rs1 rs2 imm s

/-- SH (R232). -/
def execSh (rs1 rs2 : RegIdx) (imm : Word) (s : State) : Result := storeFrom 2 rs1 rs2 imm s

/-- SW (R233). -/
def execSw (rs1 rs2 : RegIdx) (imm : Word) (s : State) : Result := storeFrom 4 rs1 rs2 imm s

end Sys2Proof.Machine
end

