-- ==== Sys2Proof/Machine/System.lean ====
section
/-! DEFINITION. ecall, ebreak and the syscall handler (spec/48_system.md). -/

namespace Sys2Proof.Machine

/-- The registers of the syscall ABI (R303): a7 holds the number, a0 to a2 the arguments, a0 the return value. -/
def a0 : RegIdx := 10#5
def a1 : RegIdx := 11#5
def a2 : RegIdx := 12#5
def a7 : RegIdx := 17#5

/-- What the handler answers: an error, or whether the step halts (with its exit code) and the state it leaves. -/
abbrev SyscallAnswer := Except Fault (Option Word × State)

/-- exit, number 93 (R306): halt with the code in a0; nothing is written. -/
def syscallExit (s : State) : SyscallAnswer := .ok (some (readReg s a0), s)

/-- write, number 64 (R307): descriptor, then bounds, then the host's answer (D15); a0 is written last. A failed host
write leaves an unspecified prefix of the bytes on the stream (U3). -/
def syscallWrite (s : State) : SyscallAnswer :=
  if readReg s a0 = 1#32 ∨ readReg s a0 = 2#32 then
    match loadBytes s (readReg s a1) (readReg s a2).toNat with
    | .ok bs =>
      match hostAnswer s with
      | .ok => .ok (none, writeReg (dropAnswer (emit s (readReg s a0) bs)) a0 (readReg s a2))
      | .failed n => .error (.syscallError (.hostIo (readReg s a0) (bs.take n)))
    | .error e => .error e
  else .error (.syscallError (.badFd (readReg s a0)))

/-- read, number 63 (R308): descriptor 0 reads no byte; a1 and a2 are ignored (D27). -/
def syscallRead (s : State) : SyscallAnswer :=
  if readReg s a0 = 0#32 then .ok (none, writeReg s a0 0#32)
  else .error (.syscallError (.badFd (readReg s a0)))

/-- `handle_syscall()` (R305): a finite total mapping on the whole word x17 (R304). -/
def handleSyscall (s : State) : SyscallAnswer :=
  if readReg s a7 = 93#32 then syscallExit s
  else if readReg s a7 = 64#32 then syscallWrite s
  else if readReg s a7 = 63#32 then syscallRead s
  else .error (.syscallError (.unknownNumber (readReg s a7)))

/-- ECALL (R300): the handler, then `advance()` whether or not it halts; nothing on an error (R302). -/
def execEcall (s : State) : Result :=
  match handleSyscall s with
  | .ok (h, t) => .next (withHalt (advance t) h)
  | .error e => raise e

/-- EBREAK (R301): always `ExecutionError(Breakpoint)`, with PC at the ebreak and CYCLE not counted. -/
def execEbreak (_s : State) : Result := raise (.executionError .breakpoint)

end Sys2Proof.Machine
end

