-- ==== Sys2Proof/Machine/UpperImmediate.lean ====
section
/-! DEFINITION. Upper-immediate instructions (spec/47_upper_immediate.md). -/

namespace Sys2Proof.Machine

/-- LUI (R290): the immediate into rd. -/
def execLui (rd : RegIdx) (imm : Word) (s : State) : Result := writeAndAdvance s rd imm

/-- AUIPC (R291): the instruction's own address plus the immediate into rd. -/
def execAuipc (rd : RegIdx) (imm : Word) (s : State) : Result := writeAndAdvance s rd (s.pc + imm)

end Sys2Proof.Machine
end

