-- ==== Sys2Proof/Machine/Step.lean ====
section
/-! DEFINITION. One step: fetch, decode, execute (spec/40_execution_cycle.md R140), with no budget check (D28). -/

namespace Sys2Proof.Machine

/-- A fetch or decode failure ends the step with its error; otherwise the decoded instruction is executed. -/
def step (s : State) : Host.Outcome State Fault Refusal :=
  match fetch s with
  | .error e => .fault e
  | .ok w =>
    match decode w with
    | .error e => .fault (decodeFault w e)
    | .ok i => exec i s

/-- `s` with the word whose low `nbits` bits are `w` stored at PC, where the next step fetches (R64). It stands for the
host's `load_binary` (spec/70_reset_and_hazards.md R384, log 19); where the four bytes do not lie in memory nothing is
stored, as no fetch can succeed there. -/
def State.withFetchWord (s : State) (nbits w : Nat) : State :=
  match memWrite s s.pc 4 (BitVec.ofNat 32 (w % 2 ^ nbits)) with
  | .ok t => t
  | .error _ => s

end Sys2Proof.Machine
end

