-- ==== Sys2Proof/Machine/Assembly.lean ====
section
/-! DEFINITION. Assembler syntax and pseudo-instructions (spec/30_encoding.md R118, R119). Text for people: no step reads
it. Both come from general knowledge by the spec's own mark (PRESUMED, safe, log 24). -/

namespace Sys2Proof.Machine

/-! ### Syntax (R118) -/

/-- A register as xN. -/
def asmReg (r : RegIdx) : String := "x" ++ toString r.toNat

/-- A signed immediate or offset. -/
def asmImm (imm : Word) : String := toString imm.toInt

/-- `mnemonic a, b, c`. -/
def asmThree (mnemonic a b c : String) : String := mnemonic ++ " " ++ a ++ ", " ++ b ++ ", " ++ c

/-- `mnemonic rd, rs1, rs2`. -/
def asmR (mnemonic : String) (rd rs1 rs2 : RegIdx) : String := asmThree mnemonic (asmReg rd) (asmReg rs1) (asmReg rs2)

/-- `mnemonic rd, rs1, imm`. -/
def asmI (mnemonic : String) (rd rs1 : RegIdx) (imm : Word) : String :=
  asmThree mnemonic (asmReg rd) (asmReg rs1) (asmImm imm)

/-- `mnemonic rd, rs1, shamt`. -/
def asmShift (mnemonic : String) (rd rs1 : RegIdx) (shamt : BitVec 5) : String :=
  asmThree mnemonic (asmReg rd) (asmReg rs1) (toString shamt.toNat)

/-- `mnemonic r, imm(base)`: loads, stores and jalr. -/
def asmBased (mnemonic : String) (r base : RegIdx) (imm : Word) : String :=
  mnemonic ++ " " ++ asmReg r ++ ", " ++ asmImm imm ++ "(" ++ asmReg base ++ ")"

/-- `mnemonic rd, imm20`, imm20 the value of w[31:12]. -/
def asmU (mnemonic : String) (rd : RegIdx) (imm : Word) : String :=
  mnemonic ++ " " ++ asmReg rd ++ ", " ++ toString (imm.toNat / 4096)

/-- The assembler text of an instruction. -/
def asmText : Instr → String
  | .add rd rs1 rs2 => asmR "add" rd rs1 rs2
  | .sub rd rs1 rs2 => asmR "sub" rd rs1 rs2
  | .sll rd rs1 rs2 => asmR "sll" rd rs1 rs2
  | .slt rd rs1 rs2 => asmR "slt" rd rs1 rs2
  | .sltu rd rs1 rs2 => asmR "sltu" rd rs1 rs2
  | .xor rd rs1 rs2 => asmR "xor" rd rs1 rs2
  | .srl rd rs1 rs2 => asmR "srl" rd rs1 rs2
  | .sra rd rs1 rs2 => asmR "sra" rd rs1 rs2
  | .or rd rs1 rs2 => asmR "or" rd rs1 rs2
  | .and rd rs1 rs2 => asmR "and" rd rs1 rs2
  | .addi rd rs1 imm => asmI "addi" rd rs1 imm
  | .slti rd rs1 imm => asmI "slti" rd rs1 imm
  | .sltiu rd rs1 imm => asmI "sltiu" rd rs1 imm
  | .xori rd rs1 imm => asmI "xori" rd rs1 imm
  | .ori rd rs1 imm => asmI "ori" rd rs1 imm
  | .andi rd rs1 imm => asmI "andi" rd rs1 imm
  | .slli rd rs1 shamt => asmShift "slli" rd rs1 shamt
  | .srli rd rs1 shamt => asmShift "srli" rd rs1 shamt
  | .srai rd rs1 shamt => asmShift "srai" rd rs1 shamt
  | .lb rd rs1 imm => asmBased "lb" rd rs1 imm
  | .lh rd rs1 imm => asmBased "lh" rd rs1 imm
  | .lw rd rs1 imm => asmBased "lw" rd rs1 imm
  | .lbu rd rs1 imm => asmBased "lbu" rd rs1 imm
  | .lhu rd rs1 imm => asmBased "lhu" rd rs1 imm
  | .sb rs1 rs2 imm => asmBased "sb" rs2 rs1 imm
  | .sh rs1 rs2 imm => asmBased "sh" rs2 rs1 imm
  | .sw rs1 rs2 imm => asmBased "sw" rs2 rs1 imm
  | .beq rs1 rs2 imm => asmI "beq" rs1 rs2 imm
  | .bne rs1 rs2 imm => asmI "bne" rs1 rs2 imm
  | .blt rs1 rs2 imm => asmI "blt" rs1 rs2 imm
  | .bge rs1 rs2 imm => asmI "bge" rs1 rs2 imm
  | .bltu rs1 rs2 imm => asmI "bltu" rs1 rs2 imm
  | .bgeu rs1 rs2 imm => asmI "bgeu" rs1 rs2 imm
  | .jal rd imm => "jal " ++ asmReg rd ++ ", " ++ asmImm imm
  | .jalr rd rs1 imm => asmBased "jalr" rd rs1 imm
  | .lui rd imm => asmU "lui" rd imm
  | .auipc rd imm => asmU "auipc" rd imm
  | .ecall => "ecall"
  | .ebreak => "ebreak"

/-! ### Pseudo-instructions (R119) -/

/-- The pseudo-instructions that expand to instructions of this hardware. An address operand is an offset from the
pseudo-instruction's own address. -/
inductive Pseudo where
  | nop
  | li (rd : RegIdx) (imm : Word)
  | mv (rd rs : RegIdx)
  | not (rd rs : RegIdx)
  | neg (rd rs : RegIdx)
  | seqz (rd rs : RegIdx)
  | snez (rd rs : RegIdx)
  | sltz (rd rs : RegIdx)
  | sgtz (rd rs : RegIdx)
  | beqz (rs : RegIdx) (off : Word)
  | bnez (rs : RegIdx) (off : Word)
  | blez (rs : RegIdx) (off : Word)
  | bgez (rs : RegIdx) (off : Word)
  | bltz (rs : RegIdx) (off : Word)
  | bgtz (rs : RegIdx) (off : Word)
  | bgt (a b : RegIdx) (off : Word)
  | ble (a b : RegIdx) (off : Word)
  | bgtu (a b : RegIdx) (off : Word)
  | bleu (a b : RegIdx) (off : Word)
  | j (off : Word)
  | jal (off : Word)
  | jr (rs : RegIdx)
  | jalr (rs : RegIdx)
  | ret
  | call (off : Word)
  | tail (off : Word)
  | la (rd : RegIdx) (off : Word)
deriving DecidableEq, Repr

/-- `lo12 = sext_12(v[11:0])`. -/
def lo12 (v : Word) : Word := (v.setWidth 12).signExtend 32

/-- `hi20 = (v - lo12)[31:12]`, as a U-type immediate. -/
def hi20 (v : Word) : Word := (v - lo12 v) &&& 0xFFFFF000#32

/-- The table of R119, one or two instructions a row. -/
def expand : Pseudo → List Instr
  | .nop => [.addi 0#5 0#5 0#32]
  | .li rd imm => if fitsImm12 imm then [.addi rd 0#5 imm] else [.lui rd (hi20 imm), .addi rd rd (lo12 imm)]
  | .mv rd rs => [.addi rd rs 0#32]
  | .not rd rs => [.xori rd rs 0xFFFFFFFF#32]
  | .neg rd rs => [.sub rd 0#5 rs]
  | .seqz rd rs => [.sltiu rd rs 1#32]
  | .snez rd rs => [.sltu rd 0#5 rs]
  | .sltz rd rs => [.slt rd rs 0#5]
  | .sgtz rd rs => [.slt rd 0#5 rs]
  | .beqz rs off => [.beq rs 0#5 off]
  | .bnez rs off => [.bne rs 0#5 off]
  | .blez rs off => [.bge 0#5 rs off]
  | .bgez rs off => [.bge rs 0#5 off]
  | .bltz rs off => [.blt rs 0#5 off]
  | .bgtz rs off => [.blt 0#5 rs off]
  | .bgt a b off => [.blt b a off]
  | .ble a b off => [.bge b a off]
  | .bgtu a b off => [.bltu b a off]
  | .bleu a b off => [.bgeu b a off]
  | .j off => [.jal 0#5 off]
  | .jal off => [.jal 1#5 off]
  | .jr rs => [.jalr 0#5 rs 0#32]
  | .jalr rs => [.jalr 1#5 rs 0#32]
  | .ret => [.jalr 0#5 1#5 0#32]
  | .call off => [.auipc 1#5 (hi20 off), .jalr 1#5 1#5 (lo12 off)]
  | .tail off => [.auipc 6#5 (hi20 off), .jalr 0#5 6#5 (lo12 off)]
  | .la rd off => [.auipc rd (hi20 off), .addi rd rd (lo12 off)]

end Sys2Proof.Machine
end

