-- ==== Sys2Proof/Machine/Vm.lean ====
section
/-! DEFINITION. The host's operations on the block, between runs (spec/00_scope.md R14, spec/40_execution_cycle.md,
spec/70_reset_and_hazards.md): construction, reset, seeding, single steps, the run loop and the statistics. -/

namespace Sys2Proof.Machine

/-! ### Construction, reset and seeding -/

/-- Construction with a configuration: state zeroed, the configuration latched (R380). -/
def construct (c : VmConfig) : State := { State.reset with cfg := c }

/-- `clear()`: every byte of memory zero (spec/20_memory.md R80). -/
def clearMemory (s : State) : State := { s with mem := [] }

/-- `size()` (R80). -/
def memorySize (s : State) : Nat := s.cfg.memSize

/-- The register file's own `reset()` (R382). -/
def resetRegisters (s : State) : State := { s with regs := Vector.replicate 31 0#32 }

/-- `reset()`: registers, PC, CYCLE and memory to zero, the configuration kept (R381). The host streams are not part of the
block and keep what they hold (spec/10_state.md R49, log 7), as do the host's coming answers. -/
def resetVm (s : State) : State :=
  { clearMemory (resetRegisters s) with pc := 0#32, cycle := 0#64, halt := none }

/-- `load_binary(addr, bytes)` (R384). -/
def loadBinary (s : State) (addr : Word) (bytes : List Byte) : Except Fault State := storeBytes s addr bytes

/-- `set_pc(v)`: any value, no check, no cycle counted (R385, D10). -/
def setPc (s : State) (v : Word) : State := { s with pc := v }

/-- `set_register(i, v)`: an index over 31 is InvalidRegister(i); x0 is accepted and discarded (R387, D26). -/
def setRegister (s : State) (i : Nat) (v : Word) : Except Fault State :=
  if i < 32 then .ok (writeReg s (BitVec.ofNat 5 i) v) else .error (.invalidRegister i)

/-- The segments of a program, each by `load_binary`, in order (R386). DESIGN CHOICE, safe (log 26): the spec does not say
what follows a segment out of bounds; loading stops there and answers its error alone, with no state, so that nothing is
said of the bytes of the segments before it. -/
def loadSegments (s : State) : List (Word × List Byte) → Except Fault State
  | [] => .ok s
  | (addr, bytes) :: rest =>
    match loadBinary s addr bytes with
    | .ok t => loadSegments t rest
    | .error e => .error e

/-- The loader's contract toward the core: every segment, then PC to the entry point (R386). -/
def loadProgram (s : State) (segments : List (Word × List Byte)) (entry : Word) : Except Fault State :=
  match loadSegments s segments with
  | .ok t => .ok (setPc t entry)
  | .error e => .error e

/-- `get_stats()`: PC, CYCLE and MEM_SIZE (R151). -/
def getStats (s : State) : Word × CycleCount × Nat := (s.pc, s.cycle, memorySize s)

/-! ### One step as the host sees it -/

/-- The outcome of a step or an instruction (R140), a refusal of the model apart. -/
inductive StepOutcome where
  /-- The instruction completed and the program goes on. -/
  | continues
  /-- The exit syscall completed, with its exit code. -/
  | halt (code : Word)
  /-- The step failed. -/
  | error (e : Fault)
  /-- The model has no meaning for what it was given; `executeInstruction` alone answers so, for a record no word decodes to. -/
  | refused (r : Refusal)
deriving DecidableEq, Repr

/-- The state an error leaves: the state the step began in (R144), but for a failed host write, which leaves a prefix of
its bytes on the stream and has used its host answer up (spec/48_system.md R307, log 4). -/
def afterError (s : State) (e : Fault) : State :=
  match e with
  | .syscallError (.hostIo fd written) => dropAnswer (emit s fd written)
  | _ => s

/-- A result of `step` or `exec` from `s`, as an outcome and the state left behind. -/
def hostView (s : State) (r : Result) : StepOutcome × State :=
  match r with
  | .next t =>
    match t.halt with
    | none => (.continues, t)
    | some code => (.halt code, t)
  | .fault e => (.error e, afterError s e)
  | .refused q => (.refused q, s)

/-- `step()`, the Executor's `execute_cycle` (R140). -/
def hostStep (s : State) : StepOutcome × State := hostView s (step s)

/-- `execute_instruction(instr)`: an already decoded instruction, with no fetch and no budget check (R149). The records a
decode gives are the well-formed ones (spec/30_encoding.md R110). DESIGN CHOICE, safe (log 25): any other record, such as a
jal with an odd offset, is refused by name and changes nothing, so set_pc alone can make PC odd (spec/10_state.md R38). -/
def executeInstruction (i : Instr) (s : State) : StepOutcome × State :=
  if i.wf then hostView s (exec i s) else (.refused .notDecoded, s)

/-! ### The run loop (R146, R147) -/

/-- What `execute()` returns. -/
inductive RunResult where
  /-- Ok(exit_code). -/
  | ok (code : Word)
  /-- Error(e). -/
  | error (e : Fault)
  /-- The model has no meaning for an instruction reached; no step answers so. -/
  | refused (r : Refusal)
deriving DecidableEq, Repr

/-- The loop of R146 with at most `fuel` steps; the budget check precedes each step. -/
def executeLoop : Nat → State → RunResult × State
  | 0, s => (.error (.executionError .cycleLimit), s)
  | fuel + 1, s =>
    if s.cfg.maxCycles ≤ s.cycle then (.error (.executionError .cycleLimit), s)
    else
      match hostStep s with
      | (.continues, t) => executeLoop fuel t
      | (.halt code, t) => (.ok code, t)
      | (.error e, t) => (.error e, t)
      | (.refused r, t) => (.refused r, t)

/-- `execute()`: a run from CYCLE completes at most MAX_CYCLES - CYCLE instructions (R147), which is the fuel it needs. -/
def execute (s : State) : RunResult × State := executeLoop (s.cfg.maxCycles.toNat - s.cycle.toNat) s

/-- `execute_with_proof()` (R152): ProofError and no change when proofs are disabled (D30), else `execute()`; the handoff to
the proving collaborator is outside the block (spec/00_scope.md R5). -/
def executeWithProof (s : State) : RunResult × State :=
  if s.cfg.enableProofs then execute s else (.error .proofError, s)

end Sys2Proof.Machine
end

