-- ==== Sys2Proof/Safety.lean ====
section
/-! DEFINITION. What the model's statements count on in a state, and which errors a step may end in. -/

namespace Sys2Proof.Machine

/-- The state invariant: MEM_SIZE in its range (spec/20_memory.md R73), memory in canonical form, and no byte listed
outside [0, MEM_SIZE) (spec/10_state.md R42). -/
structure State.Inv (s : State) : Prop where
  cfgValid : s.cfg.valid
  memWf : s.mem.wf = true
  memWithin : s.mem.within s.cfg.memSize = true

/-- The errors a step can raise (spec/60_exceptions.md R351); the run loop's, the host operations' and the
collaborators' are not among them. -/
def stepFault : Fault → Bool
  | .invalidInstruction _ => true
  | .memoryViolation _ => true
  | .invalidRegister _ => false
  | .loaderError => false
  | .syscallError _ => true
  | .executionError .cycleLimit => false
  | .executionError .breakpoint => true
  | .proofError => false
  | .verificationError => false

/-- A step that completes, as opposed to one that ends in an error (R142, R144). -/
def completes (s : State) : Prop := ∃ t, step s = .next t

end Sys2Proof.Machine
end

