-- ==== Sys2Proof/Certificates/Slice0/Obligations.lean ====
section
/-! DEFINITION. The statements for the provers, each about the machine and drawn from a rule of spec/. Values are written
in plain arithmetic on words, natural numbers and integers, apart from the model's own ALU, extension and byte-order
helpers, so that a wrong helper makes a statement false. -/

namespace Sys2Proof.Spec

open Sys2Proof.Machine

/-! ### What a state keeps of another -/

/-- Every register reads as before. -/
def SameRegs (s t : State) : Prop := ∀ r, readReg t r = readReg s r

/-- Every register but `rd` reads as before; `rd` reads `v`, or zero when it is x0 (R31, R32). -/
def WritesOnly (s t : State) (rd : RegIdx) (v : Word) : Prop :=
  readReg t rd = (if rd = 0#5 then 0#32 else v) ∧ ∀ r, r ≠ rd → readReg t r = readReg s r

/-- Every byte of memory reads as before. -/
def SameMem (s t : State) : Prop := ∀ a : Nat, t.mem.read a = s.mem.read a

/-- The host streams are as before. -/
def SameStreams (s t : State) : Prop := t.stdout = s.stdout ∧ t.stderr = s.stderr

/-- The host's coming answers are as before (the model's own fields, log 3). -/
def SameAnswers (s t : State) : Prop := t.hostAnswers = s.hostAnswers ∧ t.hostDraws = s.hostDraws

/-- The configuration, the host streams and the host's coming answers are as before. -/
def SameHost (s t : State) : Prop := t.cfg = s.cfg ∧ SameStreams s t ∧ SameAnswers s t

/-- The instruction retired to `pc'`: CYCLE grew by one and the step answered Continue (R142, R140). -/
def Retires (s t : State) (pc' : Word) : Prop := t.pc = pc' ∧ t.cycle = s.cycle + 1#64 ∧ t.halt = none

/-! ### The effect of whole families, completion and frame together -/

/-- The instruction completes; it writes `v` to `rd` and goes on at pc + 4, and nothing else changes. -/
def RegisterEffect (i : Instr) (s : State) (rd : RegIdx) (v : Word) : Prop :=
  ∃ t, exec i s = .next t ∧ WritesOnly s t rd v ∧ Retires s t (s.pc + 4#32) ∧ SameMem s t ∧ SameHost s t

/-- The instruction completes; it goes on at pc + imm when `taken`, else at pc + 4, and nothing else changes. -/
def BranchEffect (i : Instr) (s : State) (taken : Prop) [Decidable taken] (imm : Word) : Prop :=
  ∃ t, exec i s = .next t ∧ SameRegs s t ∧ Retires s t (if taken then s.pc + imm else s.pc + 4#32) ∧
    SameMem s t ∧ SameHost s t

/-- A load of `n` bytes at `effectiveAddress`: in bounds it completes with `v` in rd, out of bounds it is
MemoryViolation of the effective address. -/
def LoadEffect (i : Instr) (s : State) (n : Nat) (rd rs1 : RegIdx) (imm v : Word) : Prop :=
  effectiveAddress s rs1 imm = readReg s rs1 + imm ∧
  if (effectiveAddress s rs1 imm).toNat + n ≤ s.cfg.memSize then RegisterEffect i s rd v
  else exec i s = .fault (.memoryViolation (effectiveAddress s rs1 imm))

/-- A store of `n` bytes at `effectiveAddress`: in bounds it completes, byte k of x[rs2] stands at ea + k, and every
byte outside [ea, ea + n) and every other piece of state is as before; out of bounds it is MemoryViolation. The memory
clauses hold of a memory in canonical form, which every step keeps. -/
def StoreEffect (i : Instr) (s : State) (n : Nat) (rs1 rs2 : RegIdx) (imm : Word) : Prop :=
  effectiveAddress s rs1 imm = readReg s rs1 + imm ∧
  if (effectiveAddress s rs1 imm).toNat + n ≤ s.cfg.memSize then
    ∃ t, exec i s = .next t ∧ SameRegs s t ∧ Retires s t (s.pc + 4#32) ∧ SameHost s t ∧
      (s.mem.wf = true →
        (∀ k, k < n → t.mem.read ((effectiveAddress s rs1 imm).toNat + k) =
          BitVec.ofNat 8 ((readReg s rs2).toNat / 256 ^ k)) ∧
        (∀ a, a < (effectiveAddress s rs1 imm).toNat ∨ (effectiveAddress s rs1 imm).toNat + n ≤ a →
          t.mem.read a = s.mem.read a))
  else exec i s = .fault (.memoryViolation (effectiveAddress s rs1 imm))

/-- Every word with the row's fixed bits decodes to the instruction `mk` makes of its fields. -/
def Encodes (mask m : Word) (mk : Word → Instr) : Prop := ∀ w : Word, w &&& mask = m → decode w = .ok (mk w)

/-! ### Values -/

/-- The little-endian value of `n` bytes from address `a` up: the sum of MEM[a+k] * 2^(8k) (R19). -/
def leSum (m : Memory) (a : Nat) : Nat → Nat
  | 0 => 0
  | n + 1 => (m.read a).toNat + 256 * leSum m (a + 1) n

/-- A value below 2^bits read as signed, as a word. -/
def signedWord (bits v : Nat) : Word := BitVec.ofInt 32 (if v < 2 ^ (bits - 1) then (v : Int) else (v : Int) - 2 ^ bits)

/-- The `n` bytes from address `a` up, in address order. -/
def byteString (s : State) (a n : Nat) : List Byte := (List.range n).map fun k => s.mem.read (a + k)

/-- Where an instruction that completes goes on (R142, R250, R270, R271). -/
def nextPc (i : Instr) (s : State) : Word :=
  match i with
  | .beq rs1 rs2 imm => if readReg s rs1 = readReg s rs2 then s.pc + imm else s.pc + 4#32
  | .bne rs1 rs2 imm => if readReg s rs1 ≠ readReg s rs2 then s.pc + imm else s.pc + 4#32
  | .blt rs1 rs2 imm => if (readReg s rs1).toInt < (readReg s rs2).toInt then s.pc + imm else s.pc + 4#32
  | .bge rs1 rs2 imm => if (readReg s rs2).toInt ≤ (readReg s rs1).toInt then s.pc + imm else s.pc + 4#32
  | .bltu rs1 rs2 imm => if (readReg s rs1).toNat < (readReg s rs2).toNat then s.pc + imm else s.pc + 4#32
  | .bgeu rs1 rs2 imm => if (readReg s rs2).toNat ≤ (readReg s rs1).toNat then s.pc + imm else s.pc + 4#32
  | .jal _ imm => s.pc + imm
  | .jalr rd rs1 imm =>
    ((if s.cfg.jalrLinkBeforeRead = true ∧ rd = rs1 ∧ rd ≠ 0#5 then s.pc + 4#32 else readReg s rs1) + imm) &&& 0xFFFFFFFE#32
  | _ => s.pc + 4#32

/-- The register an instruction may write (R35): its rd, or x10 for ecall. -/
def destination : Instr → Option RegIdx
  | .add rd _ _ | .sub rd _ _ | .sll rd _ _ | .slt rd _ _ | .sltu rd _ _ => some rd
  | .xor rd _ _ | .srl rd _ _ | .sra rd _ _ | .or rd _ _ | .and rd _ _ => some rd
  | .addi rd _ _ | .slti rd _ _ | .sltiu rd _ _ | .xori rd _ _ | .ori rd _ _ | .andi rd _ _ => some rd
  | .slli rd _ _ | .srli rd _ _ | .srai rd _ _ => some rd
  | .lb rd _ _ | .lh rd _ _ | .lw rd _ _ | .lbu rd _ _ | .lhu rd _ _ => some rd
  | .jal rd _ | .jalr rd _ _ | .lui rd _ | .auipc rd _ => some rd
  | .ecall => some 10#5
  | .sb _ _ _ | .sh _ _ _ | .sw _ _ _ => none
  | .beq _ _ _ | .bne _ _ _ | .blt _ _ _ | .bge _ _ _ | .bltu _ _ _ | .bgeu _ _ _ => none
  | .ebreak => none

/-- The three stores. -/
def isStore : Instr → Bool
  | .sb _ _ _ => true
  | .sh _ _ _ => true
  | .sw _ _ _ => true
  | _ => false

/-- The mask and match of each row of spec/opcode_table.json, in the table's order. -/
def tableRows : List (Word × Word) :=
  [(0xFE00707F#32, 0x00000033#32), (0xFE00707F#32, 0x40000033#32), (0xFE00707F#32, 0x00001033#32),
   (0xFE00707F#32, 0x00002033#32), (0xFE00707F#32, 0x00003033#32), (0xFE00707F#32, 0x00004033#32),
   (0xFE00707F#32, 0x00005033#32), (0xFE00707F#32, 0x40005033#32), (0xFE00707F#32, 0x00006033#32),
   (0xFE00707F#32, 0x00007033#32)] ++
  [(0x0000707F#32, 0x00000013#32), (0x0000707F#32, 0x00002013#32), (0x0000707F#32, 0x00003013#32),
   (0x0000707F#32, 0x00004013#32), (0x0000707F#32, 0x00006013#32), (0x0000707F#32, 0x00007013#32),
   (0xFE00707F#32, 0x00001013#32), (0xFE00707F#32, 0x00005013#32), (0xFE00707F#32, 0x40005013#32)] ++
  [(0x0000707F#32, 0x00000003#32), (0x0000707F#32, 0x00001003#32), (0x0000707F#32, 0x00002003#32),
   (0x0000707F#32, 0x00004003#32), (0x0000707F#32, 0x00005003#32)] ++
  [(0x0000707F#32, 0x00000023#32), (0x0000707F#32, 0x00001023#32), (0x0000707F#32, 0x00002023#32)] ++
  [(0x0000707F#32, 0x00000063#32), (0x0000707F#32, 0x00001063#32), (0x0000707F#32, 0x00004063#32),
   (0x0000707F#32, 0x00005063#32), (0x0000707F#32, 0x00006063#32), (0x0000707F#32, 0x00007063#32)] ++
  [(0x0000007F#32, 0x0000006F#32), (0x0000707F#32, 0x00000067#32), (0x0000007F#32, 0x00000037#32),
   (0x0000007F#32, 0x00000017#32), (0xFFFFFFFF#32, 0x00000073#32), (0xFFFFFFFF#32, 0x00100073#32)]

/-- Two states that differ at most in CYCLE, the streams and the last step's outcome: what no instruction reads. -/
def AgreeOnInputs (s s' : State) : Prop :=
  SameRegs s s' ∧ s'.pc = s.pc ∧ s'.mem = s.mem ∧ s'.cfg = s.cfg ∧ SameAnswers s s'

/-- The instructions of a list complete one after another, from `s` to `t`. -/
def RunsTo : List Instr → State → State → Prop
  | [], s, t => t = s
  | i :: rest, s, t => ∃ u, exec i s = .next u ∧ RunsTo rest u t

end Sys2Proof.Spec

open Sys2Proof Sys2Proof.Machine Sys2Proof.Spec

/-! ## Encoding and decoding (spec/30_encoding.md) -/

/-- R117: the word of a well-formed instruction decodes to that instruction, every operand at every value. -/
def Obligations.DecodeOfEncode : Prop := ∀ i : Instr, i.wf = true → decode (encode i) = .ok i

/-- The other direction: a word that decodes is the encoding of a well-formed instruction, so no bit of a valid word is
ignored in a way that loses it (R92, R108). -/
def Obligations.DecodedWordIsItsEncoding : Prop := ∀ (w : Word) (i : Instr), decode w = .ok i → i.wf = true ∧ encode i = w

/-- A word decodes exactly when it matches a row of the opcode table; every other word is InvalidInstruction carrying the
word (R108, R112, R113). The table's values are the spec's decisions D3 and D4 (logs 9 and 10). -/
def Obligations.DecodeAcceptsExactlyTheTable : Prop :=
  ∀ w : Word, if ∃ row ∈ tableRows, w &&& row.1 = row.2 then ∃ i, decode w = .ok i
    else decode w = .error (.invalidInstruction w)

/-- R93 to R98: the immediates, bit by bit from the word, and their ranges. The placement of the S, B and J bits is the
spec's decision D2 (log 9). -/
def Obligations.ImmediatesBitByBit : Prop :=
  ∀ w : Word,
    (immIOf w = w.sshiftRight 20 ∧ -2048 ≤ (immIOf w).toInt ∧ (immIOf w).toInt ≤ 2047) ∧
    ((∀ k, k < 32 → (immSOf w).getLsbD k =
      if k < 5 then w.getLsbD (k + 7) else if k < 12 then w.getLsbD (k + 20) else w.getLsbD 31) ∧
      -2048 ≤ (immSOf w).toInt ∧ (immSOf w).toInt ≤ 2047) ∧
    ((∀ k, k < 32 → (immBOf w).getLsbD k =
      if k = 0 then false else if k < 5 then w.getLsbD (k + 7) else if k < 11 then w.getLsbD (k + 20)
      else if k = 11 then w.getLsbD 7 else w.getLsbD 31) ∧
      -4096 ≤ (immBOf w).toInt ∧ (immBOf w).toInt ≤ 4094 ∧ (immBOf w).toInt % 2 = 0) ∧
    (immUOf w = w &&& 0xFFFFF000#32) ∧
    ((∀ k, k < 32 → (immJOf w).getLsbD k =
      if k = 0 then false else if k < 11 then w.getLsbD (k + 20) else if k = 11 then w.getLsbD 20
      else if k < 20 then w.getLsbD k else w.getLsbD 31) ∧
      -1048576 ≤ (immJOf w).toInt ∧ (immJOf w).toInt ≤ 1048574 ∧ (immJOf w).toInt % 2 = 0) ∧
    (shamtOf w).toNat = w.toNat / 2 ^ 20 % 32

/-- One word of each format, as spec/95_test_vectors.md W2 gives them; the opcode values are the spec's decision D3 (log 9). -/
def Obligations.ExampleWordsDecode : Prop :=
  decode 0x002081B3#32 = .ok (.add 3#5 1#5 2#5) ∧ decode 0x40005033#32 = .ok (.sra 0#5 0#5 0#5) ∧
  decode 0xFFF00093#32 = .ok (.addi 1#5 0#5 (-1#32)) ∧ decode 0xFFC02283#32 = .ok (.lw 5#5 0#5 (-4#32)) ∧
  decode 0x00008067#32 = .ok (.jalr 0#5 1#5 0#32) ∧ decode 0x41F55313#32 = .ok (.srai 6#5 10#5 31#5) ∧
  decode 0xFE510FA3#32 = .ok (.sb 2#5 5#5 (-1#32)) ∧ decode 0x8020C063#32 = .ok (.blt 1#5 2#5 (-4096#32)) ∧
  decode 0x7E209FE3#32 = .ok (.bne 1#5 2#5 4094#32) ∧ decode 0x123452B7#32 = .ok (.lui 5#5 0x12345000#32) ∧
  decode 0x800000EF#32 = .ok (.jal 1#5 (-1048576#32)) ∧ decode 0x7FFFF0EF#32 = .ok (.jal 1#5 1048574#32) ∧
  decode 0x00000073#32 = .ok .ecall ∧ decode 0x00100073#32 = .ok .ebreak

/-- R115: every major opcode outside the table of R100 is invalid, whatever the other bits. -/
def Obligations.OtherOpcodesInvalid : Prop :=
  ∀ w : Word, w.toNat % 128 ∉ [0x33, 0x13, 0x03, 0x23, 0x63, 0x6F, 0x67, 0x37, 0x17, 0x73] →
    decode w = .error (.invalidInstruction w)

/-- R107: under opcode 0x73 only the two exact words decode, each to its instruction, and no other word decodes to one.
The two words are the spec's decision D3 (log 9). -/
def Obligations.SystemWordsExact : Prop :=
  (∀ w : Word, decode w = .ok .ecall ↔ w = 0x00000073#32) ∧ (∀ w : Word, decode w = .ok .ebreak ↔ w = 0x00100073#32) ∧
  ∀ w : Word, w.toNat % 128 = 0x73 → w ≠ 0x00000073#32 → w ≠ 0x00100073#32 → decode w = .error (.invalidInstruction w)

/-! ## The ALU and register arithmetic (spec/41_alu_register.md, spec/42_alu_immediate.md) -/

/-- R170: the ALU table, in arithmetic on naturals and integers. -/
def Obligations.AluTable : Prop :=
  ∀ a b : Word,
    (alu .add a b).toNat = (a.toNat + b.toNat) % 2 ^ 32 ∧
    (alu .sub a b).toNat = (a.toNat + (2 ^ 32 - b.toNat)) % 2 ^ 32 ∧
    alu .slt a b = (if a.toInt < b.toInt then 1#32 else 0#32) ∧
    alu .sltu a b = (if a.toNat < b.toNat then 1#32 else 0#32) ∧
    (∀ k, (alu .and a b).getLsbD k = (a.getLsbD k && b.getLsbD k)) ∧
    (∀ k, (alu .or a b).getLsbD k = (a.getLsbD k || b.getLsbD k)) ∧
    (∀ k, (alu .xor a b).getLsbD k = (a.getLsbD k ^^ b.getLsbD k)) ∧
    (alu .sll a b).toNat = a.toNat * 2 ^ (b.toNat % 32) % 2 ^ 32 ∧
    (alu .srl a b).toNat = a.toNat / 2 ^ (b.toNat % 32) ∧
    (alu .sra a b).toInt = a.toInt / 2 ^ (b.toNat % 32)

/-- R172, R173: add and sub, encoding, result, completion and frame. -/
def Obligations.AddSubEffect : Prop :=
  Encodes 0xFE00707F#32 0x00000033#32 (fun w => .add (rdOf w) (rs1Of w) (rs2Of w)) ∧
  Encodes 0xFE00707F#32 0x40000033#32 (fun w => .sub (rdOf w) (rs1Of w) (rs2Of w)) ∧
  ∀ (rd rs1 rs2 : RegIdx) (s : State),
    RegisterEffect (.add rd rs1 rs2) s rd (readReg s rs1 + readReg s rs2) ∧
    RegisterEffect (.sub rd rs1 rs2) s rd (readReg s rs1 - readReg s rs2)

/-- R174, R178, R179: the register shifts; the amount is x[rs2] modulo 32. -/
def Obligations.RegisterShiftEffect : Prop :=
  Encodes 0xFE00707F#32 0x00001033#32 (fun w => .sll (rdOf w) (rs1Of w) (rs2Of w)) ∧
  Encodes 0xFE00707F#32 0x00005033#32 (fun w => .srl (rdOf w) (rs1Of w) (rs2Of w)) ∧
  Encodes 0xFE00707F#32 0x40005033#32 (fun w => .sra (rdOf w) (rs1Of w) (rs2Of w)) ∧
  ∀ (rd rs1 rs2 : RegIdx) (s : State),
    RegisterEffect (.sll rd rs1 rs2) s rd (readReg s rs1 <<< ((readReg s rs2).toNat % 32)) ∧
    RegisterEffect (.srl rd rs1 rs2) s rd (readReg s rs1 >>> ((readReg s rs2).toNat % 32)) ∧
    RegisterEffect (.sra rd rs1 rs2) s rd ((readReg s rs1).sshiftRight ((readReg s rs2).toNat % 32))

/-- R175, R176: slt and sltu. -/
def Obligations.RegisterCompareEffect : Prop :=
  Encodes 0xFE00707F#32 0x00002033#32 (fun w => .slt (rdOf w) (rs1Of w) (rs2Of w)) ∧
  Encodes 0xFE00707F#32 0x00003033#32 (fun w => .sltu (rdOf w) (rs1Of w) (rs2Of w)) ∧
  ∀ (rd rs1 rs2 : RegIdx) (s : State),
    RegisterEffect (.slt rd rs1 rs2) s rd (if (readReg s rs1).toInt < (readReg s rs2).toInt then 1#32 else 0#32) ∧
    RegisterEffect (.sltu rd rs1 rs2) s rd (if (readReg s rs1).toNat < (readReg s rs2).toNat then 1#32 else 0#32)

/-- R177, R180, R181: xor, or, and. -/
def Obligations.RegisterLogicEffect : Prop :=
  Encodes 0xFE00707F#32 0x00004033#32 (fun w => .xor (rdOf w) (rs1Of w) (rs2Of w)) ∧
  Encodes 0xFE00707F#32 0x00006033#32 (fun w => .or (rdOf w) (rs1Of w) (rs2Of w)) ∧
  Encodes 0xFE00707F#32 0x00007033#32 (fun w => .and (rdOf w) (rs1Of w) (rs2Of w)) ∧
  ∀ (rd rs1 rs2 : RegIdx) (s : State),
    RegisterEffect (.xor rd rs1 rs2) s rd (readReg s rs1 ^^^ readReg s rs2) ∧
    RegisterEffect (.or rd rs1 rs2) s rd (readReg s rs1 ||| readReg s rs2) ∧
    RegisterEffect (.and rd rs1 rs2) s rd (readReg s rs1 &&& readReg s rs2)

/-- R191: addi. -/
def Obligations.AddiEffect : Prop :=
  Encodes 0x0000707F#32 0x00000013#32 (fun w => .addi (rdOf w) (rs1Of w) (immIOf w)) ∧
  ∀ (rd rs1 : RegIdx) (imm : Word) (s : State), RegisterEffect (.addi rd rs1 imm) s rd (readReg s rs1 + imm)

/-- R192, R193: slti and sltiu, the latter comparing the sign-extended immediate as unsigned. -/
def Obligations.ImmediateCompareEffect : Prop :=
  Encodes 0x0000707F#32 0x00002013#32 (fun w => .slti (rdOf w) (rs1Of w) (immIOf w)) ∧
  Encodes 0x0000707F#32 0x00003013#32 (fun w => .sltiu (rdOf w) (rs1Of w) (immIOf w)) ∧
  ∀ (rd rs1 : RegIdx) (imm : Word) (s : State),
    RegisterEffect (.slti rd rs1 imm) s rd (if (readReg s rs1).toInt < imm.toInt then 1#32 else 0#32) ∧
    RegisterEffect (.sltiu rd rs1 imm) s rd (if (readReg s rs1).toNat < imm.toNat then 1#32 else 0#32)

/-- R194, R195, R196: xori, ori, andi. -/
def Obligations.ImmediateLogicEffect : Prop :=
  Encodes 0x0000707F#32 0x00004013#32 (fun w => .xori (rdOf w) (rs1Of w) (immIOf w)) ∧
  Encodes 0x0000707F#32 0x00006013#32 (fun w => .ori (rdOf w) (rs1Of w) (immIOf w)) ∧
  Encodes 0x0000707F#32 0x00007013#32 (fun w => .andi (rdOf w) (rs1Of w) (immIOf w)) ∧
  ∀ (rd rs1 : RegIdx) (imm : Word) (s : State),
    RegisterEffect (.xori rd rs1 imm) s rd (readReg s rs1 ^^^ imm) ∧
    RegisterEffect (.ori rd rs1 imm) s rd (readReg s rs1 ||| imm) ∧
    RegisterEffect (.andi rd rs1 imm) s rd (readReg s rs1 &&& imm)

/-- R197, R198, R199: the immediate shifts. -/
def Obligations.ImmediateShiftEffect : Prop :=
  Encodes 0xFE00707F#32 0x00001013#32 (fun w => .slli (rdOf w) (rs1Of w) (shamtOf w)) ∧
  Encodes 0xFE00707F#32 0x00005013#32 (fun w => .srli (rdOf w) (rs1Of w) (shamtOf w)) ∧
  Encodes 0xFE00707F#32 0x40005013#32 (fun w => .srai (rdOf w) (rs1Of w) (shamtOf w)) ∧
  ∀ (rd rs1 : RegIdx) (shamt : BitVec 5) (s : State),
    RegisterEffect (.slli rd rs1 shamt) s rd (readReg s rs1 <<< shamt.toNat) ∧
    RegisterEffect (.srli rd rs1 shamt) s rd (readReg s rs1 >>> shamt.toNat) ∧
    RegisterEffect (.srai rd rs1 shamt) s rd ((readReg s rs1).sshiftRight shamt.toNat)

/-! ## Loads and stores (spec/43_loads.md, spec/44_stores.md) -/

/-- R211, R214: lb and lbu, in bounds and out. -/
def Obligations.LoadByteEffect : Prop :=
  Encodes 0x0000707F#32 0x00000003#32 (fun w => .lb (rdOf w) (rs1Of w) (immIOf w)) ∧
  Encodes 0x0000707F#32 0x00004003#32 (fun w => .lbu (rdOf w) (rs1Of w) (immIOf w)) ∧
  ∀ (rd rs1 : RegIdx) (imm : Word) (s : State),
    LoadEffect (.lb rd rs1 imm) s 1 rd rs1 imm (signedWord 8 (leSum s.mem (effectiveAddress s rs1 imm).toNat 1)) ∧
    LoadEffect (.lbu rd rs1 imm) s 1 rd rs1 imm (BitVec.ofNat 32 (leSum s.mem (effectiveAddress s rs1 imm).toNat 1))

/-- R212, R215: lh and lhu, at any address in bounds. -/
def Obligations.LoadHalfEffect : Prop :=
  Encodes 0x0000707F#32 0x00001003#32 (fun w => .lh (rdOf w) (rs1Of w) (immIOf w)) ∧
  Encodes 0x0000707F#32 0x00005003#32 (fun w => .lhu (rdOf w) (rs1Of w) (immIOf w)) ∧
  ∀ (rd rs1 : RegIdx) (imm : Word) (s : State),
    LoadEffect (.lh rd rs1 imm) s 2 rd rs1 imm (signedWord 16 (leSum s.mem (effectiveAddress s rs1 imm).toNat 2)) ∧
    LoadEffect (.lhu rd rs1 imm) s 2 rd rs1 imm (BitVec.ofNat 32 (leSum s.mem (effectiveAddress s rs1 imm).toNat 2))

/-- R213: lw. -/
def Obligations.LoadWordEffect : Prop :=
  Encodes 0x0000707F#32 0x00002003#32 (fun w => .lw (rdOf w) (rs1Of w) (immIOf w)) ∧
  ∀ (rd rs1 : RegIdx) (imm : Word) (s : State),
    LoadEffect (.lw rd rs1 imm) s 4 rd rs1 imm (BitVec.ofNat 32 (leSum s.mem (effectiveAddress s rs1 imm).toNat 4))

/-- R231, R232, R233: sb, sh and sw, all their bytes or none. -/
def Obligations.StoreEffects : Prop :=
  Encodes 0x0000707F#32 0x00000023#32 (fun w => .sb (rs1Of w) (rs2Of w) (immSOf w)) ∧
  Encodes 0x0000707F#32 0x00001023#32 (fun w => .sh (rs1Of w) (rs2Of w) (immSOf w)) ∧
  Encodes 0x0000707F#32 0x00002023#32 (fun w => .sw (rs1Of w) (rs2Of w) (immSOf w)) ∧
  ∀ (rs1 rs2 : RegIdx) (imm : Word) (s : State),
    StoreEffect (.sb rs1 rs2 imm) s 1 rs1 rs2 imm ∧
    StoreEffect (.sh rs1 rs2 imm) s 2 rs1 rs2 imm ∧
    StoreEffect (.sw rs1 rs2 imm) s 4 rs1 rs2 imm

/-- R63: a permitted read is the little-endian sum; a permitted write sets exactly its bytes (widths up to a word). -/
def Obligations.AccessesAreLittleEndian : Prop :=
  ∀ (s : State) (a : Word) (n : Nat), n ≤ 4 → a.toNat + n ≤ s.cfg.memSize → s.mem.wf = true →
    memRead s a n = .ok (BitVec.ofNat 32 (leSum s.mem a.toNat n)) ∧
    ∀ v : Word, ∃ t, memWrite s a n v = .ok t ∧
      (∀ k, k < n → t.mem.read (a.toNat + k) = BitVec.ofNat 8 (v.toNat / 256 ^ k)) ∧
      (∀ b, b < a.toNat ∨ a.toNat + n ≤ b → t.mem.read b = s.mem.read b)

/-- R61, R62: an access is permitted exactly when a + w <= MEM_SIZE over unbounded integers; else MemoryViolation(a). The
unbounded sum and the payload are the spec's decisions D6 and D7 (log 12); that an access of no byte at address 0 follows
R61 and not R73 when MEM_SIZE is 0 is the model's choice (log 27). -/
def Obligations.BoundsCheckIsExact : Prop :=
  ∀ (s : State) (a : Word) (w : Nat),
    if a.toNat + w ≤ s.cfg.memSize then
      (∃ bs, loadBytes s a w = .ok bs ∧ bs.length = w) ∧
      (∀ bs : List Byte, bs.length = w → ∃ t, storeBytes s a bs = .ok t)
    else loadBytes s a w = .error (.memoryViolation a) ∧
      ∀ bs : List Byte, bs.length = w → storeBytes s a bs = .error (.memoryViolation a)

/-- R66: a store followed by a load at the same address and width returns the stored value, for the three widths. The
load is made from the state the store leaves, with any registers and offset that name the same address. -/
def Obligations.StoreThenLoad : Prop :=
  ∀ (s t : State) (rs1 rs2 rd rb : RegIdx) (imm off : Word), s.mem.wf = true →
    readReg t rb + off = readReg s rs1 + imm →
    (exec (.sb rs1 rs2 imm) s = .next t →
      RegisterEffect (.lbu rd rb off) t rd (BitVec.ofNat 32 ((readReg s rs2).toNat % 2 ^ 8))) ∧
    (exec (.sh rs1 rs2 imm) s = .next t →
      RegisterEffect (.lhu rd rb off) t rd (BitVec.ofNat 32 ((readReg s rs2).toNat % 2 ^ 16))) ∧
    (exec (.sw rs1 rs2 imm) s = .next t → RegisterEffect (.lw rd rb off) t rd (readReg s rs2))

/-- R77 and R391: the word a sw stores is the word the next fetch reads when that fetch is from the same address. -/
def Obligations.StoreSeenByNextFetch : Prop :=
  ∀ (s t : State) (rs1 rs2 : RegIdx) (imm : Word), s.mem.wf = true → exec (.sw rs1 rs2 imm) s = .next t →
    fetch (setPc t (effectiveAddress s rs1 imm)) = .ok (readReg s rs2) ∧
    (s.pc + 4#32 = effectiveAddress s rs1 imm → fetch t = .ok (readReg s rs2))

/-! ## Branches, jumps and upper immediates (spec/45_branches.md, spec/46_jumps.md, spec/47_upper_immediate.md) -/

/-- R251, R252: beq and bne. -/
def Obligations.BranchEqualEffect : Prop :=
  Encodes 0x0000707F#32 0x00000063#32 (fun w => .beq (rs1Of w) (rs2Of w) (immBOf w)) ∧
  Encodes 0x0000707F#32 0x00001063#32 (fun w => .bne (rs1Of w) (rs2Of w) (immBOf w)) ∧
  ∀ (rs1 rs2 : RegIdx) (imm : Word) (s : State),
    BranchEffect (.beq rs1 rs2 imm) s (readReg s rs1 = readReg s rs2) imm ∧
    BranchEffect (.bne rs1 rs2 imm) s (readReg s rs1 ≠ readReg s rs2) imm

/-- R253, R254: blt and bge compare as signed. -/
def Obligations.BranchSignedEffect : Prop :=
  Encodes 0x0000707F#32 0x00004063#32 (fun w => .blt (rs1Of w) (rs2Of w) (immBOf w)) ∧
  Encodes 0x0000707F#32 0x00005063#32 (fun w => .bge (rs1Of w) (rs2Of w) (immBOf w)) ∧
  ∀ (rs1 rs2 : RegIdx) (imm : Word) (s : State),
    BranchEffect (.blt rs1 rs2 imm) s ((readReg s rs1).toInt < (readReg s rs2).toInt) imm ∧
    BranchEffect (.bge rs1 rs2 imm) s ((readReg s rs2).toInt ≤ (readReg s rs1).toInt) imm

/-- R255, R256: bltu and bgeu compare as unsigned. -/
def Obligations.BranchUnsignedEffect : Prop :=
  Encodes 0x0000707F#32 0x00006063#32 (fun w => .bltu (rs1Of w) (rs2Of w) (immBOf w)) ∧
  Encodes 0x0000707F#32 0x00007063#32 (fun w => .bgeu (rs1Of w) (rs2Of w) (immBOf w)) ∧
  ∀ (rs1 rs2 : RegIdx) (imm : Word) (s : State),
    BranchEffect (.bltu rs1 rs2 imm) s ((readReg s rs1).toNat < (readReg s rs2).toNat) imm ∧
    BranchEffect (.bgeu rs1 rs2 imm) s ((readReg s rs2).toNat ≤ (readReg s rs1).toNat) imm

/-- R270: jal. -/
def Obligations.JalEffect : Prop :=
  Encodes 0x0000007F#32 0x0000006F#32 (fun w => .jal (rdOf w) (immJOf w)) ∧
  ∀ (rd : RegIdx) (imm : Word) (s : State), ∃ t, exec (.jal rd imm) s = .next t ∧
    WritesOnly s t rd (s.pc + 4#32) ∧ Retires s t (s.pc + imm) ∧ SameMem s t ∧ SameHost s t

/-- R271: jalr, for either value of JALR_LINK_BEFORE_READ: the two settings differ only when rd = rs1 and is not x0. The
target is the sum less its lowest bit. -/
def Obligations.JalrEffect : Prop :=
  Encodes 0x0000707F#32 0x00000067#32 (fun w => .jalr (rdOf w) (rs1Of w) (immIOf w)) ∧
  ∀ (rd rs1 : RegIdx) (imm base : Word) (s : State),
    base = (if s.cfg.jalrLinkBeforeRead = true ∧ rd = rs1 ∧ rd ≠ 0#5 then s.pc + 4#32 else readReg s rs1) →
    ∃ t, exec (.jalr rd rs1 imm) s = .next t ∧ WritesOnly s t rd (s.pc + 4#32) ∧
      Retires s t (BitVec.ofNat 32 ((base + imm).toNat / 2 * 2)) ∧ SameMem s t ∧ SameHost s t

/-- R290, R291: lui and auipc. -/
def Obligations.UpperImmediateEffect : Prop :=
  Encodes 0x0000007F#32 0x00000037#32 (fun w => .lui (rdOf w) (immUOf w)) ∧
  Encodes 0x0000007F#32 0x00000017#32 (fun w => .auipc (rdOf w) (immUOf w)) ∧
  ∀ (rd : RegIdx) (imm : Word) (s : State),
    RegisterEffect (.lui rd imm) s rd imm ∧ RegisterEffect (.auipc rd imm) s rd (s.pc + imm)

/-! ## ecall and ebreak (spec/48_system.md) -/

/-- R306, with R302: exit completes, halts with the code in x10 and changes nothing but PC and CYCLE. That the
halting ecall counts and what its code is are the spec's decisions D11 and D17 (logs 14 and 16). -/
def Obligations.EcallExit : Prop :=
  ∀ s : State, readReg s 17#5 = 93#32 → ∃ t, exec .ecall s = .next t ∧
    executeInstruction .ecall s = (.halt (readReg s 10#5), t) ∧
    t.pc = s.pc + 4#32 ∧ t.cycle = s.cycle + 1#64 ∧ SameRegs s t ∧ SameMem s t ∧ SameHost s t

/-- R307, with the spec's decisions D14, D15 and D16 (log 15): write. The descriptor, the buffer's bounds and the host's
answer are checked in that order; on success the bytes are appended to the stream and x10 holds their count; on a failed
host write the host finds a prefix of the bytes appended to that stream (U3) and nothing else of the spec's state changed.
The host's answer, its prefix among it, is the model's free value (logs 3 and 4): the statement holds for each. A count of 0
at address 0 passes a memory of no byte by the model's choice (log 27). -/
def Obligations.EcallWrite : Prop :=
  ∀ (s : State) (fd buf count : Word), readReg s 17#5 = 64#32 → readReg s 10#5 = fd → readReg s 11#5 = buf →
    readReg s 12#5 = count →
    if fd ≠ 1#32 ∧ fd ≠ 2#32 then exec .ecall s = .fault (.syscallError (.badFd fd))
    else if s.cfg.memSize < buf.toNat + count.toNat then exec .ecall s = .fault (.memoryViolation buf)
    else match hostAnswer s with
      | .failed k =>
        exec .ecall s = .fault (.syscallError (.hostIo fd ((byteString s buf.toNat count.toNat).take k))) ∧
        ∃ t, executeInstruction .ecall s =
            (.error (.syscallError (.hostIo fd ((byteString s buf.toNat count.toNat).take k))), t) ∧
          SameRegs s t ∧ t.pc = s.pc ∧ t.cycle = s.cycle ∧ SameMem s t ∧ t.cfg = s.cfg ∧
          t.stdout = s.stdout ++ (if fd = 1#32 then (byteString s buf.toNat count.toNat).take k else []) ∧
          t.stderr = s.stderr ++ (if fd = 2#32 then (byteString s buf.toNat count.toNat).take k else []) ∧
          t.hostAnswers = s.hostAnswers.tail ∧
          t.hostDraws = (if s.hostAnswers = [] then s.hostDraws + 1 else s.hostDraws)
      | .ok => ∃ t, exec .ecall s = .next t ∧ WritesOnly s t 10#5 count ∧ Retires s t (s.pc + 4#32) ∧ SameMem s t ∧
          t.cfg = s.cfg ∧
          t.stdout = s.stdout ++ (if fd = 1#32 then byteString s buf.toNat count.toNat else []) ∧
          t.stderr = s.stderr ++ (if fd = 2#32 then byteString s buf.toNat count.toNat else []) ∧
          t.hostAnswers = s.hostAnswers.tail ∧
          t.hostDraws = (if s.hostAnswers = [] then s.hostDraws + 1 else s.hostDraws)

/-- R308: read. Descriptor 0 completes with x10 = 0, whatever x11 and x12 hold; any other descriptor is BadFd.
That x11 and x12 are ignored is the spec's decision D27 (log 15). -/
def Obligations.EcallRead : Prop :=
  ∀ s : State, readReg s 17#5 = 63#32 →
    if readReg s 10#5 = 0#32 then RegisterEffect .ecall s 10#5 0#32
    else exec .ecall s = .fault (.syscallError (.badFd (readReg s 10#5)))

/-- R309: any other number, read as a whole word, is UnknownNumber and changes nothing. -/
def Obligations.EcallUnknownNumber : Prop :=
  ∀ s : State, readReg s 17#5 ≠ 93#32 → readReg s 17#5 ≠ 64#32 → readReg s 17#5 ≠ 63#32 →
    exec .ecall s = .fault (.syscallError (.unknownNumber (readReg s 17#5))) ∧
    executeInstruction .ecall s = (.error (.syscallError (.unknownNumber (readReg s 17#5))), s)

/-- R301: ebreak always ends in Breakpoint, with PC and CYCLE as they were (the spec's decision D12, log 6). -/
def Obligations.EbreakBreakpoint : Prop :=
  Encodes 0xFFFFFFFF#32 0x00100073#32 (fun _ => .ebreak) ∧
  ∀ s : State, exec .ebreak s = .fault (.executionError .breakpoint) ∧
    executeInstruction .ebreak s = (.error (.executionError .breakpoint), s)

/-! ## The step (spec/40_execution_cycle.md, spec/60_exceptions.md) -/

/-- The step runs the decoded instruction, with nothing around it; a fetch failure comes before a decode failure (R140).
That a step checks no cycle budget is the spec's decision D28 (log 22). -/
def Obligations.StepRunsTheDecodedInstruction : Prop :=
  (∀ (s : State) (w : Word) (i : Instr), fetch s = .ok w → decode w = .ok i → step s = exec i s) ∧
  (∀ (s : State) (w v : Word), fetch s = .ok w → decode w = .error (.invalidInstruction v) →
    step s = .fault (.invalidInstruction w)) ∧
  (∀ (s : State) (e : Fault), fetch s = .error e → step s = .fault e)

/-- R64: the fetched word is the little-endian value of the four bytes at PC, or MemoryViolation(PC) (the
payload and the lack of an alignment rule: the spec's decisions D7 and D5, logs 12 and 11). -/
def Obligations.FetchReadsTheWordAtPc : Prop :=
  ∀ s : State, fetch s = if s.pc.toNat + 4 ≤ s.cfg.memSize then .ok (BitVec.ofNat 32 (leSum s.mem s.pc.toNat 4))
    else .error (.memoryViolation s.pc)

/-- R142: a completed instruction goes on at pc + 4, or at the target of a taken branch, a jal or a jalr, and counts one
cycle. -/
def Obligations.CompletedInstructionRetires : Prop :=
  ∀ (i : Instr) (s t : State), exec i s = .next t → t.pc = nextPc i s ∧ t.cycle = s.cycle + 1#64

/-- R140: the Halt outcome comes from the exit syscall alone, with its exit code; every other completed instruction
answers Continue. That the code is the whole of x10 is the spec's decision D17 (log 16), and the field `halt` that holds the
outcome is the model's choice (log 5). -/
def Obligations.HaltOnlyByExit : Prop :=
  ∀ (i : Instr) (s t : State), exec i s = .next t →
    t.halt = if i = .ecall ∧ readReg s 17#5 = 93#32 then some (readReg s 10#5) else none

/-- R35: an instruction writes no register but its destination, and the exit syscall writes none. -/
def Obligations.OnlyTheDestinationIsWritten : Prop :=
  ∀ (i : Instr) (s t : State), exec i s = .next t →
    (∀ r, destination i ≠ some r → readReg t r = readReg s r) ∧
    (i = .ecall → readReg s 17#5 = 93#32 → SameRegs s t)

/-- Memory is written by the stores alone, and the host streams by ecall alone, which only appends (R60, R71, R311). -/
def Obligations.OnlyStoresWriteMemoryOnlyEcallWritesStreams : Prop :=
  ∀ (i : Instr) (s t : State), exec i s = .next t →
    (isStore i = false → SameMem s t) ∧ (i ≠ .ecall → SameStreams s t ∧ SameAnswers s t) ∧
    s.stdout <+: t.stdout ∧ s.stderr <+: t.stderr

/-- Every step completes or ends in one of the errors a step can raise; none is refused, and the errors of the run loop,
the host operations and the collaborators never come from a step (R340 to R347, R351). -/
def Obligations.StepOutcomesAreTheSpecs : Prop :=
  ∀ s : State, completes s ∨ ∃ e, step s = .fault e ∧ stepFault e = true

/-- R144: a step or an instruction that raises an error leaves every register, PC, CYCLE, memory and the configuration as
they were; only a failed host write leaves anything, on a stream. The rule is the spec's decision D12 (logs 4 and 6). -/
def Obligations.FailingStepChangesNothing : Prop :=
  ∀ (s t : State) (e : Fault) (i : Instr), hostStep s = (.error e, t) ∨ executeInstruction i s = (.error e, t) →
    SameRegs s t ∧ t.pc = s.pc ∧ t.cycle = s.cycle ∧ t.mem = s.mem ∧ t.cfg = s.cfg ∧
    s.stdout <+: t.stdout ∧ s.stderr <+: t.stderr ∧
    ((∀ fd bs, e ≠ .syscallError (.hostIo fd bs)) → t = s)

/-! ## Invariants -/

/-- Every step keeps the invariant: MEM_SIZE in range, memory canonical and inside [0, MEM_SIZE). The
range is the spec's decision D23 (log 17) and the canonical form is the model's. -/
def Obligations.StepKeepsInvariant : Prop := ∀ s t : State, s.Inv → step s = .next t → t.Inv

/-- The state after reset, and after construction with any configuration in range, meets the invariant. -/
def Obligations.ResetMeetsInvariant : Prop :=
  State.reset.Inv ∧ ∀ c : VmConfig, c.valid → (construct c).Inv

/-- R38: PC's bit 0 becomes 1 through set_pc alone. From an even PC every step leads to an even PC (branch and jal offsets
are even as decoded, and jalr clears bit 0), and so does every host operation but set_pc and the program load that uses it,
whatever its outcome. That execute_instruction refuses a record no word decodes to is the model's choice (log 25). -/
def Obligations.PcStaysEven : Prop :=
  ∀ s : State, s.pc.toNat % 2 = 0 →
    (∀ t, step s = .next t → t.pc.toNat % 2 = 0) ∧ (hostStep s).2.pc.toNat % 2 = 0 ∧
    (∀ i : Instr, (executeInstruction i s).2.pc.toNat % 2 = 0) ∧ (execute s).2.pc.toNat % 2 = 0 ∧
    (executeWithProof s).2.pc.toNat % 2 = 0 ∧ (resetVm s).pc.toNat % 2 = 0 ∧
    (∀ (t : State) (a : Word) (bs : List Byte), loadBinary s a bs = .ok t → t.pc.toNat % 2 = 0) ∧
    (∀ (t : State) (i : Nat) (v : Word), setRegister s i v = .ok t → t.pc.toNat % 2 = 0) ∧
    ∀ c : VmConfig, (construct c).pc.toNat % 2 = 0

/-- R149: execute_instruction of the instruction a word decodes to is its execution with no fetch, so where that word stands
at PC it is step(). A record no word decodes to is refused by name and changes nothing: the model's choice (log 25). -/
def Obligations.ExecuteInstructionRunsDecodedInstructions : Prop :=
  (∀ (s : State) (w : Word) (i : Instr), decode w = .ok i →
    executeInstruction i s = hostView s (exec i s) ∧ (fetch s = .ok w → executeInstruction i s = hostStep s)) ∧
  ∀ (s : State) (i : Instr), (∀ w, decode w ≠ .ok i) → executeInstruction i s = (.refused .notDecoded, s)

/-- R43: no step, whatever its outcome, and no host operation after construction changes the configuration; construction
latches the one it is given. That the configuration stands in the state is the model's choice (log 1). -/
def Obligations.ConfigurationIsFixed : Prop :=
  (∀ s t : State, step s = .next t → t.cfg = s.cfg) ∧ (∀ s : State, (hostStep s).2.cfg = s.cfg) ∧
  (∀ (i : Instr) (s : State), (executeInstruction i s).2.cfg = s.cfg) ∧ (∀ s : State, (resetVm s).cfg = s.cfg) ∧
  (∀ s : State, (execute s).2.cfg = s.cfg) ∧ (∀ s : State, (executeWithProof s).2.cfg = s.cfg) ∧
  (∀ (s t : State) (segments : List (Word × List Byte)) (entry : Word),
    loadProgram s segments entry = .ok t → t.cfg = s.cfg) ∧
  (∀ (s t : State) (a : Word) (bs : List Byte), loadBinary s a bs = .ok t → t.cfg = s.cfg) ∧
  (∀ (s : State) (v : Word), (setPc s v).cfg = s.cfg) ∧
  (∀ (s t : State) (i : Nat) (v : Word), setRegister s i v = .ok t → t.cfg = s.cfg) ∧
  (∀ c : VmConfig, (construct c).cfg = c)

/-- No instruction reads CYCLE or a host stream: two states that differ in nothing else have the same outcome and go on to
states that again differ in nothing else (R40, R47, R145). -/
def Obligations.CycleAndStreamsAreNotRead : Prop :=
  ∀ s s' : State, AgreeOnInputs s s' →
    (∀ t, step s = .next t → ∃ t', step s' = .next t' ∧ AgreeOnInputs t t' ∧ t'.halt = t.halt) ∧
    (∀ e, step s = .fault e → step s' = .fault e)

/-! ## Registers, reset and the host's operations (spec/10_state.md, spec/70_reset_and_hazards.md) -/

/-- R31, R32: x0 reads zero and discards writes; a write to another register is read back and touches no other. -/
def Obligations.RegisterFileReadsAndWrites : Prop :=
  ∀ (s : State) (i : RegIdx) (v : Word), readReg s 0#5 = 0#32 ∧ WritesOnly s (writeReg s i v) i v ∧
    writeReg s 0#5 v = s

/-- R49, R380 and R383: the values after construction with any configuration, of which State.reset is the one with the
default, and the first step's error: the zero word at address 0 is no instruction, or lies outside a memory of fewer than
four bytes. That memory is zero is the spec's decision D8 (log 8); the default configuration is in logs 1 and 2. -/
def Obligations.ResetValues : Prop :=
  (∀ c : VmConfig, (∀ i, readReg (construct c) i = 0#32) ∧ (construct c).pc = 0#32 ∧ (construct c).cycle = 0#64 ∧
    (∀ a, (construct c).mem.read a = 0#8) ∧ (construct c).stdout = [] ∧ (construct c).stderr = [] ∧
    (construct c).cfg = c ∧ step (construct c) =
      .fault (if 4 ≤ c.memSize then .invalidInstruction 0#32 else .memoryViolation 0#32)) ∧
  State.reset = construct { memSize := 4194304, maxCycles := 1000000#64, enableProofs := false, jalrLinkBeforeRead := false }

/-- R381 and R49's last row: reset() zeroes the registers, PC, CYCLE and memory and keeps the configuration, the model's
jalr parameter in it too (log 1), and the host streams (log 7). -/
def Obligations.ResetOperation : Prop :=
  ∀ s : State, (∀ i, readReg (resetVm s) i = 0#32) ∧ (resetVm s).pc = 0#32 ∧ (resetVm s).cycle = 0#64 ∧
    (∀ a, (resetVm s).mem.read a = 0#8) ∧ (resetVm s).cfg = s.cfg ∧ SameStreams s (resetVm s)

/-- R384: load_binary places the bytes and changes nothing else, or is MemoryViolation(addr) (the spec's decision
D21, log 21); no byte at address 0 of a memory of no byte is in bounds by the model's choice (log 27). -/
def Obligations.LoadBinaryPlacesBytes : Prop :=
  ∀ (s : State) (addr : Word) (bytes : List Byte),
    if addr.toNat + bytes.length ≤ s.cfg.memSize then
      ∃ t, loadBinary s addr bytes = .ok t ∧ SameRegs s t ∧ t.pc = s.pc ∧ t.cycle = s.cycle ∧ SameHost s t ∧
        (s.mem.wf = true →
          (∀ k b, bytes[k]? = some b → t.mem.read (addr.toNat + k) = b) ∧
          (∀ a, a < addr.toNat ∨ addr.toNat + bytes.length ≤ a → t.mem.read a = s.mem.read a))
    else loadBinary s addr bytes = .error (.memoryViolation addr)

/-- R386: a program is its segments by load_binary, in order, and then PC at the entry point. Registers and CYCLE are as
before; that the load's set_pc counts no cycle is the spec's decision D10 (R385, conflict C2; log 14). The error
of a segment out of bounds is its load_binary's (R384); that the load ends there with that error, which R386 does not say,
is the model's choice (log 26). -/
def Obligations.LoadProgramFollowsTheLoaderContract : Prop :=
  ∀ (s : State) (entry : Word),
    loadProgram s [] entry = .ok (setPc s entry) ∧
    (∀ (a : Word) (bs : List Byte) (rest : List (Word × List Byte)),
      loadProgram s ((a, bs) :: rest) entry =
        match loadBinary s a bs with
        | .ok t => loadProgram t rest entry
        | .error e => .error e) ∧
    ∀ (segments : List (Word × List Byte)) (t : State), loadProgram s segments entry = .ok t →
      t.pc = entry ∧ SameRegs s t ∧ t.cycle = s.cycle ∧ SameHost s t

/-- R385 and R387: set_pc seeds PC with any value and counts no cycle; set_register writes one register, discards x0 and
rejects an index over 31 (the spec's decisions D10 and D26, logs 14 and 23). -/
def Obligations.SeedingOperations : Prop :=
  (∀ (s : State) (v : Word), (setPc s v).pc = v ∧ (setPc s v).cycle = s.cycle ∧ SameRegs s (setPc s v) ∧
    SameMem s (setPc s v) ∧ SameHost s (setPc s v)) ∧
  ∀ (s : State) (i : Nat) (v : Word),
    if i < 32 then ∃ t, setRegister s i v = .ok t ∧ WritesOnly s t (BitVec.ofNat 5 i) v ∧ t.pc = s.pc ∧
      t.cycle = s.cycle ∧ SameMem s t ∧ SameHost s t
    else setRegister s i v = .error (.invalidRegister i)

/-- R146: the run loop. -/
def Obligations.ExecuteIsTheRunLoop : Prop :=
  ∀ s : State, execute s =
    if s.cfg.maxCycles.toNat ≤ s.cycle.toNat then (.error (.executionError .cycleLimit), s)
    else match hostStep s with
      | (.continues, t) => execute t
      | (.halt code, t) => (.ok code, t)
      | (.error e, t) => (.error e, t)
      | (.refused r, t) => (.refused r, t)

/-- R147: a run from CYCLE = c completes at most MAX_CYCLES - c instructions (none if c >= MAX_CYCLES). It ends in
CycleLimit exactly there, or earlier by an exit or by an error of a step. -/
def Obligations.RunEndsWithinBudget : Prop :=
  ∀ (s t : State) (r : RunResult), execute s = (r, t) →
    s.cycle.toNat ≤ t.cycle.toNat ∧ t.cycle.toNat ≤ max s.cycle.toNat s.cfg.maxCycles.toNat ∧
    ((r = .error (.executionError .cycleLimit) ∧ t.cycle.toNat = max s.cycle.toNat s.cfg.maxCycles.toNat) ∨
     (∃ code, r = .ok code ∧ t.halt = some code ∧ s.cycle.toNat < t.cycle.toNat) ∨
     (∃ e, r = .error e ∧ stepFault e = true ∧ t.cycle.toNat < s.cfg.maxCycles.toNat))

/-- R151 and R152: get_stats reports PC, CYCLE and MEM_SIZE; execute_with_proof fails with ProofError and changes nothing
when proofs are disabled, and otherwise runs execute() (the spec's decision D30, log 22). -/
def Obligations.StatisticsAndProofFlag : Prop :=
  ∀ s : State, getStats s = (s.pc, s.cycle, s.cfg.memSize) ∧
    (s.cfg.enableProofs = false → executeWithProof s = (.error .proofError, s)) ∧
    (s.cfg.enableProofs = true → executeWithProof s = execute s)

/-- R119, PRESUMED (log 24): the two-instruction expansions have operands their formats carry, and compute what they stand
for: li its constant, la the address, call the jump with its link. The call needs the recommended jalr order (log 2). -/
def Obligations.PseudoInstructionsCompute : Prop :=
  (∀ v : Word, fitsImm12 (lo12 v) = true ∧ fitsUpper (hi20 v) = true) ∧
  (∀ (rd : RegIdx) (imm : Word) (s : State), ∃ t, RunsTo (expand (.li rd imm)) s t ∧ WritesOnly s t rd imm ∧ SameMem s t ∧
    t.pc = s.pc + (if -2048 ≤ imm.toInt ∧ imm.toInt ≤ 2047 then 4#32 else 8#32)) ∧
  (∀ (rd : RegIdx) (off : Word) (s : State), ∃ t, RunsTo (expand (.la rd off)) s t ∧ WritesOnly s t rd (s.pc + off) ∧
    SameMem s t ∧ t.pc = s.pc + 8#32) ∧
  ∀ (off : Word) (s : State), s.cfg.jalrLinkBeforeRead = false → ∃ t, RunsTo (expand (.call off)) s t ∧
    WritesOnly s t 1#5 (s.pc + 8#32) ∧ SameMem s t ∧ t.pc = BitVec.ofNat 32 ((s.pc + off).toNat / 2 * 2)
end

