-- ==== Sys2Proof/Laws/Encode.lean ====
section
/-! SUPPORT. The fields of an encoded word, format by format, the immediates the decoder reads back, and every word put
together again from its fields (spec/30_encoding.md R91 to R98). -/

namespace Sys2Proof

/-! ### R-type fields -/

@[simp] theorem encodeR_opcode (f7 : BitVec 7) (f3 : BitVec 3) (op : BitVec 7) (rd rs1 rs2 : RegIdx) :
    opcodeOf (encodeR f7 f3 op rd rs1 rs2) = op := by
  refine BitVec.eq_of_getLsbD_eq fun i hi => ?_
  simp only [opcodeOf, encodeR, field, BitVec.getLsbD_append, BitVec.getLsbD_extractLsb']
  interval_cases i <;> simp

@[simp] theorem encodeR_funct3 (f7 : BitVec 7) (f3 : BitVec 3) (op : BitVec 7) (rd rs1 rs2 : RegIdx) :
    funct3Of (encodeR f7 f3 op rd rs1 rs2) = f3 := by
  refine BitVec.eq_of_getLsbD_eq fun i hi => ?_
  simp only [funct3Of, encodeR, field, BitVec.getLsbD_append, BitVec.getLsbD_extractLsb']
  interval_cases i <;> simp

@[simp] theorem encodeR_funct7 (f7 : BitVec 7) (f3 : BitVec 3) (op : BitVec 7) (rd rs1 rs2 : RegIdx) :
    funct7Of (encodeR f7 f3 op rd rs1 rs2) = f7 := by
  refine BitVec.eq_of_getLsbD_eq fun i hi => ?_
  simp only [funct7Of, encodeR, field, BitVec.getLsbD_append, BitVec.getLsbD_extractLsb']
  interval_cases i <;> simp

@[simp] theorem encodeR_rd (f7 : BitVec 7) (f3 : BitVec 3) (op : BitVec 7) (rd rs1 rs2 : RegIdx) :
    rdOf (encodeR f7 f3 op rd rs1 rs2) = rd := by
  refine BitVec.eq_of_getLsbD_eq fun i hi => ?_
  simp only [rdOf, encodeR, field, BitVec.getLsbD_append, BitVec.getLsbD_extractLsb']
  interval_cases i <;> simp

@[simp] theorem encodeR_rs1 (f7 : BitVec 7) (f3 : BitVec 3) (op : BitVec 7) (rd rs1 rs2 : RegIdx) :
    rs1Of (encodeR f7 f3 op rd rs1 rs2) = rs1 := by
  refine BitVec.eq_of_getLsbD_eq fun i hi => ?_
  simp only [rs1Of, encodeR, field, BitVec.getLsbD_append, BitVec.getLsbD_extractLsb']
  interval_cases i <;> simp

@[simp] theorem encodeR_rs2 (f7 : BitVec 7) (f3 : BitVec 3) (op : BitVec 7) (rd rs1 rs2 : RegIdx) :
    rs2Of (encodeR f7 f3 op rd rs1 rs2) = rs2 := by
  refine BitVec.eq_of_getLsbD_eq fun i hi => ?_
  simp only [rs2Of, encodeR, field, BitVec.getLsbD_append, BitVec.getLsbD_extractLsb']
  interval_cases i <;> simp

@[simp] theorem encodeR_shamt (f7 : BitVec 7) (f3 : BitVec 3) (op : BitVec 7) (rd rs1 rs2 : RegIdx) :
    shamtOf (encodeR f7 f3 op rd rs1 rs2) = rs2 := by
  refine BitVec.eq_of_getLsbD_eq fun i hi => ?_
  simp only [shamtOf, encodeR, field, BitVec.getLsbD_append, BitVec.getLsbD_extractLsb']
  interval_cases i <;> simp

/-! ### I-type fields -/

@[simp] theorem encodeI_opcode (f3 : BitVec 3) (op : BitVec 7) (rd rs1 : RegIdx) (imm : Word) :
    opcodeOf (encodeI f3 op rd rs1 imm) = op := by
  refine BitVec.eq_of_getLsbD_eq fun i hi => ?_
  simp only [opcodeOf, encodeI, field, BitVec.getLsbD_append, BitVec.getLsbD_extractLsb']
  interval_cases i <;> simp

@[simp] theorem encodeI_funct3 (f3 : BitVec 3) (op : BitVec 7) (rd rs1 : RegIdx) (imm : Word) :
    funct3Of (encodeI f3 op rd rs1 imm) = f3 := by
  refine BitVec.eq_of_getLsbD_eq fun i hi => ?_
  simp only [funct3Of, encodeI, field, BitVec.getLsbD_append, BitVec.getLsbD_extractLsb']
  interval_cases i <;> simp

@[simp] theorem encodeI_rd (f3 : BitVec 3) (op : BitVec 7) (rd rs1 : RegIdx) (imm : Word) :
    rdOf (encodeI f3 op rd rs1 imm) = rd := by
  refine BitVec.eq_of_getLsbD_eq fun i hi => ?_
  simp only [rdOf, encodeI, field, BitVec.getLsbD_append, BitVec.getLsbD_extractLsb']
  interval_cases i <;> simp

@[simp] theorem encodeI_rs1 (f3 : BitVec 3) (op : BitVec 7) (rd rs1 : RegIdx) (imm : Word) :
    rs1Of (encodeI f3 op rd rs1 imm) = rs1 := by
  refine BitVec.eq_of_getLsbD_eq fun i hi => ?_
  simp only [rs1Of, encodeI, field, BitVec.getLsbD_append, BitVec.getLsbD_extractLsb']
  interval_cases i <;> simp

/-! ### S-type fields -/

@[simp] theorem encodeS_opcode (f3 : BitVec 3) (op : BitVec 7) (rs1 rs2 : RegIdx) (imm : Word) :
    opcodeOf (encodeS f3 op rs1 rs2 imm) = op := by
  refine BitVec.eq_of_getLsbD_eq fun i hi => ?_
  simp only [opcodeOf, encodeS, field, BitVec.getLsbD_append, BitVec.getLsbD_extractLsb']
  interval_cases i <;> simp

@[simp] theorem encodeS_funct3 (f3 : BitVec 3) (op : BitVec 7) (rs1 rs2 : RegIdx) (imm : Word) :
    funct3Of (encodeS f3 op rs1 rs2 imm) = f3 := by
  refine BitVec.eq_of_getLsbD_eq fun i hi => ?_
  simp only [funct3Of, encodeS, field, BitVec.getLsbD_append, BitVec.getLsbD_extractLsb']
  interval_cases i <;> simp

@[simp] theorem encodeS_rs1 (f3 : BitVec 3) (op : BitVec 7) (rs1 rs2 : RegIdx) (imm : Word) :
    rs1Of (encodeS f3 op rs1 rs2 imm) = rs1 := by
  refine BitVec.eq_of_getLsbD_eq fun i hi => ?_
  simp only [rs1Of, encodeS, field, BitVec.getLsbD_append, BitVec.getLsbD_extractLsb']
  interval_cases i <;> simp

@[simp] theorem encodeS_rs2 (f3 : BitVec 3) (op : BitVec 7) (rs1 rs2 : RegIdx) (imm : Word) :
    rs2Of (encodeS f3 op rs1 rs2 imm) = rs2 := by
  refine BitVec.eq_of_getLsbD_eq fun i hi => ?_
  simp only [rs2Of, encodeS, field, BitVec.getLsbD_append, BitVec.getLsbD_extractLsb']
  interval_cases i <;> simp

/-! ### B-type fields -/

@[simp] theorem encodeB_opcode (f3 : BitVec 3) (op : BitVec 7) (rs1 rs2 : RegIdx) (imm : Word) :
    opcodeOf (encodeB f3 op rs1 rs2 imm) = op := by
  refine BitVec.eq_of_getLsbD_eq fun i hi => ?_
  simp only [opcodeOf, encodeB, field, BitVec.getLsbD_append, BitVec.getLsbD_extractLsb']
  interval_cases i <;> simp

@[simp] theorem encodeB_funct3 (f3 : BitVec 3) (op : BitVec 7) (rs1 rs2 : RegIdx) (imm : Word) :
    funct3Of (encodeB f3 op rs1 rs2 imm) = f3 := by
  refine BitVec.eq_of_getLsbD_eq fun i hi => ?_
  simp only [funct3Of, encodeB, field, BitVec.getLsbD_append, BitVec.getLsbD_extractLsb']
  interval_cases i <;> simp

@[simp] theorem encodeB_rs1 (f3 : BitVec 3) (op : BitVec 7) (rs1 rs2 : RegIdx) (imm : Word) :
    rs1Of (encodeB f3 op rs1 rs2 imm) = rs1 := by
  refine BitVec.eq_of_getLsbD_eq fun i hi => ?_
  simp only [rs1Of, encodeB, field, BitVec.getLsbD_append, BitVec.getLsbD_extractLsb']
  interval_cases i <;> simp

@[simp] theorem encodeB_rs2 (f3 : BitVec 3) (op : BitVec 7) (rs1 rs2 : RegIdx) (imm : Word) :
    rs2Of (encodeB f3 op rs1 rs2 imm) = rs2 := by
  refine BitVec.eq_of_getLsbD_eq fun i hi => ?_
  simp only [rs2Of, encodeB, field, BitVec.getLsbD_append, BitVec.getLsbD_extractLsb']
  interval_cases i <;> simp

/-! ### U-type fields -/

@[simp] theorem encodeU_opcode (op : BitVec 7) (rd : RegIdx) (imm : Word) :
    opcodeOf (encodeU op rd imm) = op := by
  refine BitVec.eq_of_getLsbD_eq fun i hi => ?_
  simp only [opcodeOf, encodeU, field, BitVec.getLsbD_append, BitVec.getLsbD_extractLsb']
  interval_cases i <;> simp

@[simp] theorem encodeU_rd (op : BitVec 7) (rd : RegIdx) (imm : Word) :
    rdOf (encodeU op rd imm) = rd := by
  refine BitVec.eq_of_getLsbD_eq fun i hi => ?_
  simp only [rdOf, encodeU, field, BitVec.getLsbD_append, BitVec.getLsbD_extractLsb']
  interval_cases i <;> simp

/-! ### J-type fields -/

@[simp] theorem encodeJ_opcode (op : BitVec 7) (rd : RegIdx) (imm : Word) :
    opcodeOf (encodeJ op rd imm) = op := by
  refine BitVec.eq_of_getLsbD_eq fun i hi => ?_
  simp only [opcodeOf, encodeJ, field, BitVec.getLsbD_append, BitVec.getLsbD_extractLsb']
  interval_cases i <;> simp

@[simp] theorem encodeJ_rd (op : BitVec 7) (rd : RegIdx) (imm : Word) :
    rdOf (encodeJ op rd imm) = rd := by
  refine BitVec.eq_of_getLsbD_eq fun i hi => ?_
  simp only [rdOf, encodeJ, field, BitVec.getLsbD_append, BitVec.getLsbD_extractLsb']
  interval_cases i <;> simp

/-! ### The immediate read back from an encoded word -/

theorem encodeI_imm (f3 : BitVec 3) (op : BitVec 7) (rd rs1 : RegIdx) (imm : Word) :
    immIOf (encodeI f3 op rd rs1 imm) = (imm.setWidth 12).signExtend 32 := by
  unfold immIOf
  congr 1
  refine BitVec.eq_of_getLsbD_eq fun i hi => ?_
  simp only [encodeI, field, BitVec.getLsbD_append, BitVec.getLsbD_extractLsb', BitVec.getLsbD_setWidth]
  interval_cases i <;> simp

theorem encodeS_imm (f3 : BitVec 3) (op : BitVec 7) (rs1 rs2 : RegIdx) (imm : Word) :
    immSOf (encodeS f3 op rs1 rs2 imm) = (imm.setWidth 12).signExtend 32 := by
  unfold immSOf
  congr 1
  refine BitVec.eq_of_getLsbD_eq fun i hi => ?_
  simp only [encodeS, field, BitVec.getLsbD_append, BitVec.getLsbD_extractLsb', BitVec.getLsbD_setWidth]
  interval_cases i <;> simp

theorem encodeB_imm (f3 : BitVec 3) (op : BitVec 7) (rs1 rs2 : RegIdx) (imm : Word) (h : imm.getLsbD 0 = false) :
    immBOf (encodeB f3 op rs1 rs2 imm) = (imm.setWidth 13).signExtend 32 := by
  unfold immBOf
  congr 1
  refine BitVec.eq_of_getLsbD_eq fun i hi => ?_
  simp only [encodeB, field, BitVec.getLsbD_append, BitVec.getLsbD_extractLsb', BitVec.getLsbD_setWidth]
  rw [BitVec.getLsbD_eq_getElem (by omega)] at h
  interval_cases i <;> simp [h]

theorem encodeJ_imm (op : BitVec 7) (rd : RegIdx) (imm : Word) (h : imm.getLsbD 0 = false) :
    immJOf (encodeJ op rd imm) = (imm.setWidth 21).signExtend 32 := by
  unfold immJOf
  congr 1
  refine BitVec.eq_of_getLsbD_eq fun i hi => ?_
  simp only [encodeJ, field, BitVec.getLsbD_append, BitVec.getLsbD_extractLsb', BitVec.getLsbD_setWidth]
  rw [BitVec.getLsbD_eq_getElem (by omega)] at h
  interval_cases i <;> simp [h]

theorem encodeU_imm (op : BitVec 7) (rd : RegIdx) (imm : Word) : immUOf (encodeU op rd imm) = field imm 12 20 ++ 0#12 := by
  unfold immUOf
  congr 1
  refine BitVec.eq_of_getLsbD_eq fun i hi => ?_
  simp only [encodeU, field, BitVec.getLsbD_append, BitVec.getLsbD_extractLsb']
  interval_cases i <;> simp

/-! ### An immediate in its format's range is what its field extends to -/

theorem fitsImm12_signExtend {imm : Word} (h : fitsImm12 imm = true) : (imm.setWidth 12).signExtend 32 = imm := by
  simp only [fitsImm12, Bool.and_eq_true, decide_eq_true_eq] at h
  apply BitVec.eq_of_toInt_eq
  rw [BitVec.toInt_signExtend_of_le (by omega), BitVec.toInt_setWidth, Int.bmod_def]
  have := BitVec.toInt_eq_toNat_cond imm
  have := imm.isLt
  split <;> omega

theorem fitsBranch_signExtend {imm : Word} (h : fitsBranch imm = true) : (imm.setWidth 13).signExtend 32 = imm := by
  simp only [fitsBranch, Bool.and_eq_true, decide_eq_true_eq] at h
  apply BitVec.eq_of_toInt_eq
  rw [BitVec.toInt_signExtend_of_le (by omega), BitVec.toInt_setWidth, Int.bmod_def]
  have := BitVec.toInt_eq_toNat_cond imm
  have := imm.isLt
  split <;> omega

theorem fitsJump_signExtend {imm : Word} (h : fitsJump imm = true) : (imm.setWidth 21).signExtend 32 = imm := by
  simp only [fitsJump, Bool.and_eq_true, decide_eq_true_eq] at h
  apply BitVec.eq_of_toInt_eq
  rw [BitVec.toInt_signExtend_of_le (by omega), BitVec.toInt_setWidth, Int.bmod_def]
  have := BitVec.toInt_eq_toNat_cond imm
  have := imm.isLt
  split <;> omega

theorem fitsBranch_even {imm : Word} (h : fitsBranch imm = true) : imm.getLsbD 0 = false := by
  simp only [fitsBranch, Bool.and_eq_true, decide_eq_true_eq] at h
  have := BitVec.toInt_eq_toNat_cond imm
  have h2 : imm.toNat % 2 = 0 := by split at this <;> omega
  simp [BitVec.getLsbD, Nat.testBit_zero, h2]

theorem fitsJump_even {imm : Word} (h : fitsJump imm = true) : imm.getLsbD 0 = false := by
  simp only [fitsJump, Bool.and_eq_true, decide_eq_true_eq] at h
  have := BitVec.toInt_eq_toNat_cond imm
  have h2 : imm.toNat % 2 = 0 := by split at this <;> omega
  simp [BitVec.getLsbD, Nat.testBit_zero, h2]

theorem fitsUpper_append {imm : Word} (h : fitsUpper imm = true) : field imm 12 20 ++ 0#12 = imm := by
  simp only [fitsUpper, decide_eq_true_eq] at h
  apply BitVec.eq_of_toNat_eq
  have := imm.isLt
  simp only [field, BitVec.toNat_append, BitVec.extractLsb'_toNat, BitVec.toNat_ofNat, Nat.zero_mod, Nat.or_zero,
    Nat.shiftLeft_eq, Nat.shiftRight_eq_div_pow]
  omega

/-! ### A well-formed immediate survives encoding -/

theorem encodeI_imm_of_fits {imm : Word} (h : fitsImm12 imm = true) (f3 : BitVec 3) (op : BitVec 7) (rd rs1 : RegIdx) :
    immIOf (encodeI f3 op rd rs1 imm) = imm := by rw [encodeI_imm, fitsImm12_signExtend h]

theorem encodeS_imm_of_fits {imm : Word} (h : fitsImm12 imm = true) (f3 : BitVec 3) (op : BitVec 7) (rs1 rs2 : RegIdx) :
    immSOf (encodeS f3 op rs1 rs2 imm) = imm := by rw [encodeS_imm, fitsImm12_signExtend h]

theorem encodeB_imm_of_fits {imm : Word} (h : fitsBranch imm = true) (f3 : BitVec 3) (op : BitVec 7) (rs1 rs2 : RegIdx) :
    immBOf (encodeB f3 op rs1 rs2 imm) = imm := by rw [encodeB_imm _ _ _ _ _ (fitsBranch_even h), fitsBranch_signExtend h]

theorem encodeJ_imm_of_fits {imm : Word} (h : fitsJump imm = true) (op : BitVec 7) (rd : RegIdx) :
    immJOf (encodeJ op rd imm) = imm := by rw [encodeJ_imm _ _ _ (fitsJump_even h), fitsJump_signExtend h]

theorem encodeU_imm_of_fits {imm : Word} (h : fitsUpper imm = true) (op : BitVec 7) (rd : RegIdx) :
    immUOf (encodeU op rd imm) = imm := by rw [encodeU_imm, fitsUpper_append h]

/-! ### A decoded immediate is in its format's range -/

theorem fitsImm12_of_signExtend (x : BitVec 12) : fitsImm12 (x.signExtend 32) = true := by
  have h1 := BitVec.two_mul_toInt_lt (x := x)
  have h2 := BitVec.le_two_mul_toInt (x := x)
  simp only [fitsImm12, Bool.and_eq_true, decide_eq_true_eq, BitVec.toInt_signExtend_of_le (by omega : 12 ≤ 32)]
  omega

theorem fitsBranch_of_signExtend (x : BitVec 12) : fitsBranch ((x ++ 0#1 : BitVec 13).signExtend 32) = true := by
  have h1 := BitVec.two_mul_toInt_lt (x := (x ++ 0#1 : BitVec 13))
  have h2 := BitVec.le_two_mul_toInt (x := (x ++ 0#1 : BitVec 13))
  have h3 : ((x ++ 0#1 : BitVec 13)).toNat % 2 = 0 := by
    simp only [BitVec.toNat_append, BitVec.toNat_ofNat, Nat.zero_mod, Nat.or_zero, Nat.shiftLeft_eq]; omega
  have h4 := BitVec.toInt_eq_toNat_cond (x ++ 0#1 : BitVec 13)
  simp only [fitsBranch, Bool.and_eq_true, decide_eq_true_eq, BitVec.toInt_signExtend_of_le (by omega : 13 ≤ 32)]
  split at h4 <;> omega

theorem fitsJump_of_signExtend (x : BitVec 20) : fitsJump ((x ++ 0#1 : BitVec 21).signExtend 32) = true := by
  have h1 := BitVec.two_mul_toInt_lt (x := (x ++ 0#1 : BitVec 21))
  have h2 := BitVec.le_two_mul_toInt (x := (x ++ 0#1 : BitVec 21))
  have h3 : ((x ++ 0#1 : BitVec 21)).toNat % 2 = 0 := by
    simp only [BitVec.toNat_append, BitVec.toNat_ofNat, Nat.zero_mod, Nat.or_zero, Nat.shiftLeft_eq]; omega
  have h4 := BitVec.toInt_eq_toNat_cond (x ++ 0#1 : BitVec 21)
  simp only [fitsJump, Bool.and_eq_true, decide_eq_true_eq, BitVec.toInt_signExtend_of_le (by omega : 21 ≤ 32)]
  split at h4 <;> omega

theorem fitsImm12_immIOf (w : Word) : fitsImm12 (immIOf w) = true := fitsImm12_of_signExtend _

theorem fitsImm12_immSOf (w : Word) : fitsImm12 (immSOf w) = true := fitsImm12_of_signExtend _

theorem fitsBranch_immBOf (w : Word) : fitsBranch (immBOf w) = true := fitsBranch_of_signExtend _

theorem fitsJump_immJOf (w : Word) : fitsJump (immJOf w) = true := fitsJump_of_signExtend _

theorem fitsUpper_immUOf (w : Word) : fitsUpper (immUOf w) = true := by
  simp only [fitsUpper, immUOf, decide_eq_true_eq, BitVec.toNat_append, BitVec.toNat_ofNat, Nat.zero_mod, Nat.or_zero,
    Nat.shiftLeft_eq]
  omega

/-! ### A word put together again from its fields -/

theorem encodeR_of_fields (w : Word) :
    encodeR (funct7Of w) (funct3Of w) (opcodeOf w) (rdOf w) (rs1Of w) (rs2Of w) = w := by
  refine BitVec.eq_of_getLsbD_eq fun i hi => ?_
  simp only [encodeR, funct7Of, funct3Of, opcodeOf, rdOf, rs1Of, rs2Of, field, BitVec.getLsbD_append,
    BitVec.getLsbD_extractLsb']
  interval_cases i <;> simp

theorem encodeI_of_fields (w : Word) :
    encodeI (funct3Of w) (opcodeOf w) (rdOf w) (rs1Of w) (immIOf w) = w := by
  refine BitVec.eq_of_getLsbD_eq fun i hi => ?_
  simp only [encodeI, funct3Of, opcodeOf, rdOf, rs1Of, immIOf, field, BitVec.getLsbD_signExtend, BitVec.getLsbD_append,
    BitVec.getLsbD_extractLsb']
  interval_cases i <;> simp

theorem encodeS_of_fields (w : Word) :
    encodeS (funct3Of w) (opcodeOf w) (rs1Of w) (rs2Of w) (immSOf w) = w := by
  refine BitVec.eq_of_getLsbD_eq fun i hi => ?_
  simp only [encodeS, funct3Of, opcodeOf, rs1Of, rs2Of, immSOf, field, BitVec.getLsbD_signExtend, BitVec.getLsbD_append,
    BitVec.getLsbD_extractLsb']
  interval_cases i <;> simp

theorem encodeB_of_fields (w : Word) :
    encodeB (funct3Of w) (opcodeOf w) (rs1Of w) (rs2Of w) (immBOf w) = w := by
  refine BitVec.eq_of_getLsbD_eq fun i hi => ?_
  simp only [encodeB, funct3Of, opcodeOf, rs1Of, rs2Of, immBOf, field, BitVec.getLsbD_signExtend, BitVec.getLsbD_append,
    BitVec.getLsbD_extractLsb']
  interval_cases i <;> simp

theorem encodeU_of_fields (w : Word) :
    encodeU (opcodeOf w) (rdOf w) (immUOf w) = w := by
  refine BitVec.eq_of_getLsbD_eq fun i hi => ?_
  simp only [encodeU, opcodeOf, rdOf, immUOf, field, BitVec.getLsbD_append,
    BitVec.getLsbD_extractLsb']
  interval_cases i <;> simp

theorem encodeJ_of_fields (w : Word) :
    encodeJ (opcodeOf w) (rdOf w) (immJOf w) = w := by
  refine BitVec.eq_of_getLsbD_eq fun i hi => ?_
  simp only [encodeJ, opcodeOf, rdOf, immJOf, field, BitVec.getLsbD_signExtend, BitVec.getLsbD_append,
    BitVec.getLsbD_extractLsb']
  interval_cases i <;> simp

/-! ### Fields of a word that matches a row of spec/opcode_table.json -/

/-- A field the mask covers whole has the row's value. -/
theorem field_of_mask {w mask m : Word} (h : w &&& mask = m) (lo len : Nat)
    (hm : field mask lo len = BitVec.allOnes len) : field w lo len = field m lo len := by
  subst h
  refine BitVec.eq_of_getLsbD_eq fun i hi => ?_
  have hb := congrArg (fun x : BitVec len => x.getLsbD i) hm
  simp only [field, BitVec.getLsbD_extractLsb', BitVec.getLsbD_allOnes, hi, decide_true, Bool.true_and] at hb
  simp [field, hi, hb]

end Sys2Proof
end

