-- ==== Sys2Proof/Laws/Memory.lean ====
section
/-! SUPPORT. The laws of memory: the canonical form is kept, a read after a write, and that equal reads mean equal
memories (spec/20_memory.md R63, R74). -/

namespace Sys2Proof.Machine

/-! ### The canonical form -/

theorem Memory.wfFrom_cons {lo k : Nat} {b : Byte} {m : Memory} :
    Memory.wfFrom lo ((k, b) :: m) = true ↔ lo ≤ k ∧ b ≠ 0#8 ∧ Memory.wfFrom (k + 1) m = true := by
  simp only [Memory.wfFrom, Bool.and_eq_true, decide_eq_true_eq, and_assoc]

theorem Memory.wfFrom_mono {lo lo' : Nat} {m : Memory} (h : lo' ≤ lo) (hm : Memory.wfFrom lo m = true) :
    Memory.wfFrom lo' m = true := by
  cases m with
  | nil => rfl
  | cons c m =>
    obtain ⟨hk, hb, hr⟩ := Memory.wfFrom_cons.mp hm
    exact Memory.wfFrom_cons.mpr ⟨h.trans hk, hb, hr⟩

/-- Below the first listed address everything reads zero. -/
theorem Memory.read_of_lt {lo a : Nat} {m : Memory} (hm : Memory.wfFrom lo m = true) (h : a < lo) :
    Memory.read m a = 0#8 := by
  cases m with
  | nil => rfl
  | cons c m =>
    obtain ⟨hk, -, -⟩ := Memory.wfFrom_cons.mp hm
    have h1 : c.1 ≠ a := by omega
    have h2 : a < c.1 := by omega
    simp [Memory.read, h1, h2]

theorem Memory.consCell_wfFrom {lo a : Nat} {b : Byte} {m : Memory} (h : lo ≤ a) (hm : Memory.wfFrom (a + 1) m = true) :
    Memory.wfFrom lo (Memory.cons a b m) = true := by
  unfold Memory.cons
  split
  · exact Memory.wfFrom_mono (by omega) hm
  · exact Memory.wfFrom_cons.mpr ⟨h, ‹_›, hm⟩

theorem Memory.write_wfFrom {lo a : Nat} {b : Byte} {m : Memory} (hm : Memory.wfFrom lo m = true) (h : lo ≤ a) :
    Memory.wfFrom lo (Memory.write m a b) = true := by
  induction m generalizing lo with
  | nil => exact Memory.consCell_wfFrom h rfl
  | cons c m ih =>
    obtain ⟨hk, hb, hr⟩ := Memory.wfFrom_cons.mp hm
    simp only [Memory.write]
    split
    · exact Memory.consCell_wfFrom h (Memory.wfFrom_cons.mpr ⟨by omega, hb, hr⟩)
    · split
      · rename_i hc; subst hc; exact Memory.consCell_wfFrom h hr
      · exact Memory.wfFrom_cons.mpr ⟨hk, hb, ih hr (by omega)⟩

/-- A write keeps the canonical form. -/
theorem Memory.write_wf {m : Memory} (a : Nat) (b : Byte) (hm : m.wf = true) : (Memory.write m a b).wf = true :=
  Memory.write_wfFrom hm (Nat.zero_le a)

/-- A bulk write keeps the canonical form. -/
theorem Memory.writeBytes_wf {m : Memory} (a : Nat) (bs : List Byte) (hm : m.wf = true) :
    (m.writeBytes a bs).wf = true := by
  induction bs generalizing m a with
  | nil => exact hm
  | cons b bs ih => exact ih (a + 1) (Memory.write_wf a b hm)

/-! ### Nothing is listed outside the buffer -/

theorem Memory.within_cons {size k : Nat} {b : Byte} {m : Memory} :
    Memory.within size ((k, b) :: m) = true ↔ k < size ∧ Memory.within size m = true := by
  simp [Memory.within]

theorem Memory.write_within {size a : Nat} {b : Byte} {m : Memory} (hm : m.within size = true) (h : a < size) :
    (Memory.write m a b).within size = true := by
  have consIn : ∀ {m : Memory}, m.within size = true → (Memory.cons a b m).within size = true := by
    intro m hm
    unfold Memory.cons
    split
    · exact hm
    · exact Memory.within_cons.mpr ⟨h, hm⟩
  induction m with
  | nil => exact consIn rfl
  | cons c m ih =>
    obtain ⟨hk, hr⟩ := Memory.within_cons.mp hm
    simp only [Memory.write]
    split
    · exact consIn hm
    · split
      · exact consIn hr
      · exact Memory.within_cons.mpr ⟨hk, ih hr⟩

theorem Memory.writeBytes_within {size a : Nat} {bs : List Byte} {m : Memory} (hm : m.within size = true)
    (h : a + bs.length ≤ size) : (m.writeBytes a bs).within size = true := by
  induction bs generalizing m a with
  | nil => exact hm
  | cons b bs ih =>
    simp only [List.length_cons] at h
    exact ih (Memory.write_within hm (by omega)) (by omega)

/-! ### A read after a write -/

theorem Memory.read_consCell {a : Nat} {b : Byte} {m : Memory} (hm : Memory.wfFrom (a + 1) m = true) (c : Nat) :
    Memory.read (Memory.cons a b m) c = if c = a then b else Memory.read m c := by
  unfold Memory.cons
  by_cases hc : c = a
  · subst hc
    split
    · rename_i hb; simp [hb, Memory.read_of_lt hm (Nat.lt_succ_self c)]
    · simp [Memory.read]
  · split
    · simp
    · have hc' : a ≠ c := Ne.symm hc
      by_cases hlt : c < a
      · simp [Memory.read, hc', hlt, Memory.read_of_lt hm (by omega : c < a + 1)]
      · simp [Memory.read, hc', hlt]

theorem Memory.read_write_of_wfFrom {lo a : Nat} {b : Byte} {m : Memory} (hm : Memory.wfFrom lo m = true) (c : Nat) :
    Memory.read (Memory.write m a b) c = if c = a then b else Memory.read m c := by
  induction m generalizing lo with
  | nil => exact Memory.read_consCell (m := []) rfl c
  | cons d m ih =>
    obtain ⟨hk, hb, hr⟩ := Memory.wfFrom_cons.mp hm
    simp only [Memory.write]
    split
    · exact Memory.read_consCell (Memory.wfFrom_cons.mpr ⟨by omega, hb, hr⟩) c
    · split
      · rename_i hd
        subst hd
        rw [Memory.read_consCell hr]
        by_cases hc : c = d.1
        · simp [hc]
        · by_cases hlt : c < d.1
          · simp [Memory.read, hc, Ne.symm hc, hlt, Memory.read_of_lt hr (by omega : c < d.1 + 1)]
          · simp [Memory.read, hc, Ne.symm hc, hlt]
      · simp only [Memory.read]
        by_cases hdc : d.1 = c
        · have : c ≠ a := by omega
          simp [hdc, this]
        · by_cases hlt : c < d.1
          · have : c ≠ a := by omega
            simp [hdc, hlt, this]
          · simp [hdc, hlt, ih hr]

/-- A read after a write of one byte. -/
theorem Memory.read_write {m : Memory} (hm : m.wf = true) (a c : Nat) (b : Byte) :
    Memory.read (Memory.write m a b) c = if c = a then b else Memory.read m c := Memory.read_write_of_wfFrom hm c

/-- A bulk write leaves every byte outside its range alone. -/
theorem Memory.read_writeBytes_outside {m : Memory} (hm : m.wf = true) (a : Nat) (bs : List Byte) {c : Nat}
    (h : c < a ∨ a + bs.length ≤ c) : Memory.read (m.writeBytes a bs) c = Memory.read m c := by
  induction bs generalizing m a with
  | nil => rfl
  | cons b bs ih =>
    simp only [List.length_cons] at h
    have hne : c ≠ a := by omega
    rw [Memory.writeBytes, ih (Memory.write_wf a b hm) (a + 1) (by omega), Memory.read_write hm]
    simp [hne]

/-- A bulk write puts byte k at address a + k. -/
theorem Memory.read_writeBytes_inside {m : Memory} (hm : m.wf = true) (a : Nat) (bs : List Byte) {k : Nat}
    (h : k < bs.length) : Memory.read (m.writeBytes a bs) (a + k) = bs[k] := by
  induction bs generalizing m a k with
  | nil => simp at h
  | cons b bs ih =>
    cases k with
    | zero =>
      rw [Memory.writeBytes, Memory.read_writeBytes_outside (Memory.write_wf a b hm) _ _ (by omega), Memory.read_write hm]
      simp
    | succ k =>
      have h' : k < bs.length := by simpa using h
      have hk := ih (Memory.write_wf a b hm) (a + 1) h'
      rw [Memory.writeBytes, show a + (k + 1) = a + 1 + k by omega, hk]
      simp

/-- Two canonical memories that read alike everywhere are equal data. -/
theorem Memory.ext_of_wf {m n : Memory} (hm : m.wf = true) (hn : n.wf = true)
    (h : ∀ a, Memory.read m a = Memory.read n a) : m = n := by
  suffices H : ∀ (m n : Memory) (lo lo' : Nat), Memory.wfFrom lo m = true → Memory.wfFrom lo' n = true →
      (∀ a, Memory.read m a = Memory.read n a) → m = n from H m n 0 0 hm hn h
  intro m
  induction m with
  | nil =>
    intro n lo lo' _ hn h
    cases n with
    | nil => rfl
    | cons d n =>
      obtain ⟨-, hb, -⟩ := Memory.wfFrom_cons.mp hn
      exact absurd (h d.1).symm (by simpa [Memory.read] using hb)
  | cons c m ih =>
    intro n lo lo' hm hn h
    obtain ⟨-, hcb, hcr⟩ := Memory.wfFrom_cons.mp hm
    cases n with
    | nil => exact absurd (h c.1) (by simpa [Memory.read] using hcb)
    | cons d n =>
      obtain ⟨-, hdb, hdr⟩ := Memory.wfFrom_cons.mp hn
      have hkey : c.1 = d.1 := by
        rcases Nat.lt_trichotomy c.1 d.1 with hl | he | hl
        · have := h c.1
          simp [Memory.read, hl, (Nat.ne_of_lt hl).symm] at this
          exact absurd this hcb
        · exact he
        · have := (h d.1).symm
          simp [Memory.read, hl, (Nat.ne_of_lt hl).symm] at this
          exact absurd this hdb
      have hbyte : c.2 = d.2 := by
        have := h c.1
        simpa [Memory.read, hkey] using this
      have hrest : ∀ a, Memory.read m a = Memory.read n a := by
        intro a
        by_cases ha : a < c.1 + 1
        · rw [Memory.read_of_lt hcr ha, Memory.read_of_lt hdr (by omega)]
        · have h1 : c.1 ≠ a := by omega
          have h2 : d.1 ≠ a := by omega
          have h3 : ¬ a < c.1 := by omega
          have h4 : ¬ a < d.1 := by omega
          simpa [Memory.read, h1, h2, h3, h4] using h a
      rw [ih n _ _ hcr hdr hrest, Prod.ext hkey hbyte]

/-! ### Byte strings -/

@[simp] theorem Memory.readBytes_length (m : Memory) (a n : Nat) : (m.readBytes a n).length = n := by
  induction n generalizing a with
  | zero => rfl
  | succ n ih => simp [Memory.readBytes, ih]

theorem Memory.readBytes_getElem (m : Memory) (a n k : Nat) (h : k < n) :
    (m.readBytes a n)[k]'(by simpa using h) = Memory.read m (a + k) := by
  induction n generalizing a k with
  | zero => omega
  | succ n ih =>
    cases k with
    | zero => rfl
    | succ k =>
      have := ih (a + 1) k (by omega)
      simp only [Memory.readBytes, List.getElem_cons_succ, this]
      congr 1; omega

@[simp] theorem leBytes_length (v : Word) (n : Nat) : (leBytes v n).length = n := by
  induction n generalizing v with
  | zero => rfl
  | succ n ih => simp [leBytes, ih]

/-- Byte k of a word is `v[8k+7:8k]` (spec/20_memory.md R63). -/
theorem leBytes_getElem (v : Word) (n k : Nat) (h : k < n) :
    (leBytes v n)[k]'(by simpa using h) = v.extractLsb' (8 * k) 8 := by
  induction n generalizing v k with
  | zero => omega
  | succ n ih =>
    cases k with
    | zero => simp [leBytes, BitVec.setWidth_eq_extractLsb' (by omega : 8 ≤ 32)]
    | succ k =>
      simp only [leBytes, List.getElem_cons_succ, ih (v >>> 8) k (by omega)]
      ext i hi
      simp only [BitVec.getElem_extractLsb', BitVec.getLsbD_ushiftRight]
      congr 1; omega

/-- What a bulk read finds after a bulk write of as many bytes at the same address. -/
theorem Memory.readBytes_writeBytes {m : Memory} (hm : m.wf = true) (a : Nat) (bs : List Byte) :
    (m.writeBytes a bs).readBytes a bs.length = bs := by
  apply List.ext_getElem (by simp)
  intro k h1 h2
  rw [Memory.readBytes_getElem _ _ _ _ h2, Memory.read_writeBytes_inside hm a bs h2]

/-- A byte in front of a byte string adds to 256 times its value, while that fits a word. -/
theorem leWord_cons_toNat (b : Byte) {bs : List Byte} (h : (leWord bs).toNat < 2 ^ 24) :
    (leWord (b :: bs)).toNat = b.toNat + 256 * (leWord bs).toNat := by
  have hb : b.toNat < 2 ^ 8 := b.isLt
  simp only [leWord, BitVec.toNat_or, BitVec.toNat_setWidth, BitVec.toNat_shiftLeft]
  rw [Nat.mod_eq_of_lt (by omega : b.toNat < 2 ^ 32), Nat.mod_eq_of_lt (by rw [Nat.shiftLeft_eq]; omega), Nat.or_comm,
    ← Nat.shiftLeft_add_eq_or_of_lt hb, Nat.shiftLeft_eq]
  omega

/-- The value of four bytes taken from a word is the word. -/
theorem leWord_leBytes_four (v : Word) : leWord (leBytes v 4) = v := by
  ext i hi
  simp only [leBytes, leWord, BitVec.getElem_or, BitVec.getElem_setWidth, BitVec.getLsbD_ushiftRight,
    BitVec.getLsbD_setWidth, BitVec.getElem_shiftLeft]
  rw [← BitVec.getLsbD_eq_getElem]
  interval_cases i <;> simp

end Sys2Proof.Machine
end

