-- ==== Sys2Proof/Laws/State.lean ====
section
/-! SUPPORT. One lemma per field per update of the state, and how register reads see each update. -/

namespace Sys2Proof.Machine

/-! ### jump, advance and withHalt -/

@[simp] theorem jump_regs (s : State) (t : Word) : (jump s t).regs = s.regs := rfl
@[simp] theorem jump_pc (s : State) (t : Word) : (jump s t).pc = t := rfl
@[simp] theorem jump_cycle (s : State) (t : Word) : (jump s t).cycle = s.cycle + 1#64 := rfl
@[simp] theorem jump_mem (s : State) (t : Word) : (jump s t).mem = s.mem := rfl
@[simp] theorem jump_cfg (s : State) (t : Word) : (jump s t).cfg = s.cfg := rfl
@[simp] theorem jump_stdout (s : State) (t : Word) : (jump s t).stdout = s.stdout := rfl
@[simp] theorem jump_stderr (s : State) (t : Word) : (jump s t).stderr = s.stderr := rfl
@[simp] theorem jump_halt (s : State) (t : Word) : (jump s t).halt = none := rfl
@[simp] theorem jump_hostAnswers (s : State) (t : Word) : (jump s t).hostAnswers = s.hostAnswers := rfl
@[simp] theorem jump_hostDraws (s : State) (t : Word) : (jump s t).hostDraws = s.hostDraws := rfl
@[simp] theorem readReg_jump (s : State) (t : Word) (i : RegIdx) : readReg (jump s t) i = readReg s i := rfl

@[simp] theorem advance_regs (s : State) : (advance s).regs = s.regs := rfl
@[simp] theorem advance_pc (s : State) : (advance s).pc = s.pc + 4#32 := rfl
@[simp] theorem advance_cycle (s : State) : (advance s).cycle = s.cycle + 1#64 := rfl
@[simp] theorem advance_mem (s : State) : (advance s).mem = s.mem := rfl
@[simp] theorem advance_cfg (s : State) : (advance s).cfg = s.cfg := rfl
@[simp] theorem advance_stdout (s : State) : (advance s).stdout = s.stdout := rfl
@[simp] theorem advance_stderr (s : State) : (advance s).stderr = s.stderr := rfl
@[simp] theorem advance_halt (s : State) : (advance s).halt = none := rfl
@[simp] theorem advance_hostAnswers (s : State) : (advance s).hostAnswers = s.hostAnswers := rfl
@[simp] theorem advance_hostDraws (s : State) : (advance s).hostDraws = s.hostDraws := rfl
@[simp] theorem readReg_advance (s : State) (i : RegIdx) : readReg (advance s) i = readReg s i := rfl

@[simp] theorem withHalt_regs (s : State) (h : Option Word) : (withHalt s h).regs = s.regs := rfl
@[simp] theorem withHalt_pc (s : State) (h : Option Word) : (withHalt s h).pc = s.pc := rfl
@[simp] theorem withHalt_cycle (s : State) (h : Option Word) : (withHalt s h).cycle = s.cycle := rfl
@[simp] theorem withHalt_mem (s : State) (h : Option Word) : (withHalt s h).mem = s.mem := rfl
@[simp] theorem withHalt_cfg (s : State) (h : Option Word) : (withHalt s h).cfg = s.cfg := rfl
@[simp] theorem withHalt_stdout (s : State) (h : Option Word) : (withHalt s h).stdout = s.stdout := rfl
@[simp] theorem withHalt_stderr (s : State) (h : Option Word) : (withHalt s h).stderr = s.stderr := rfl
@[simp] theorem withHalt_halt (s : State) (h : Option Word) : (withHalt s h).halt = h := rfl
@[simp] theorem withHalt_hostAnswers (s : State) (h : Option Word) : (withHalt s h).hostAnswers = s.hostAnswers := rfl
@[simp] theorem withHalt_hostDraws (s : State) (h : Option Word) : (withHalt s h).hostDraws = s.hostDraws := rfl
@[simp] theorem readReg_withHalt (s : State) (h : Option Word) (i : RegIdx) : readReg (withHalt s h) i = readReg s i := rfl

@[simp] theorem setPc_regs (s : State) (v : Word) : (setPc s v).regs = s.regs := rfl
@[simp] theorem setPc_pc (s : State) (v : Word) : (setPc s v).pc = v := rfl
@[simp] theorem setPc_cycle (s : State) (v : Word) : (setPc s v).cycle = s.cycle := rfl
@[simp] theorem setPc_mem (s : State) (v : Word) : (setPc s v).mem = s.mem := rfl
@[simp] theorem setPc_cfg (s : State) (v : Word) : (setPc s v).cfg = s.cfg := rfl
@[simp] theorem setPc_stdout (s : State) (v : Word) : (setPc s v).stdout = s.stdout := rfl
@[simp] theorem setPc_stderr (s : State) (v : Word) : (setPc s v).stderr = s.stderr := rfl
@[simp] theorem setPc_halt (s : State) (v : Word) : (setPc s v).halt = s.halt := rfl
@[simp] theorem setPc_hostAnswers (s : State) (v : Word) : (setPc s v).hostAnswers = s.hostAnswers := rfl
@[simp] theorem setPc_hostDraws (s : State) (v : Word) : (setPc s v).hostDraws = s.hostDraws := rfl
@[simp] theorem readReg_setPc (s : State) (v : Word) (i : RegIdx) : readReg (setPc s v) i = readReg s i := rfl

/-! ### Memory replaced -/

@[simp] theorem readReg_setMem (s : State) (m : Memory) (i : RegIdx) : readReg { s with mem := m } i = readReg s i := rfl

/-! ### writeReg touches the register file only (spec/10_state.md R32) -/

@[simp] theorem writeReg_pc (s : State) (i : RegIdx) (v : Word) : (writeReg s i v).pc = s.pc := by
  unfold writeReg; split <;> rfl
@[simp] theorem writeReg_cycle (s : State) (i : RegIdx) (v : Word) : (writeReg s i v).cycle = s.cycle := by
  unfold writeReg; split <;> rfl
@[simp] theorem writeReg_mem (s : State) (i : RegIdx) (v : Word) : (writeReg s i v).mem = s.mem := by
  unfold writeReg; split <;> rfl
@[simp] theorem writeReg_cfg (s : State) (i : RegIdx) (v : Word) : (writeReg s i v).cfg = s.cfg := by
  unfold writeReg; split <;> rfl
@[simp] theorem writeReg_stdout (s : State) (i : RegIdx) (v : Word) : (writeReg s i v).stdout = s.stdout := by
  unfold writeReg; split <;> rfl
@[simp] theorem writeReg_stderr (s : State) (i : RegIdx) (v : Word) : (writeReg s i v).stderr = s.stderr := by
  unfold writeReg; split <;> rfl
@[simp] theorem writeReg_halt (s : State) (i : RegIdx) (v : Word) : (writeReg s i v).halt = s.halt := by
  unfold writeReg; split <;> rfl
@[simp] theorem writeReg_hostAnswers (s : State) (i : RegIdx) (v : Word) : (writeReg s i v).hostAnswers = s.hostAnswers := by
  unfold writeReg; split <;> rfl
@[simp] theorem writeReg_hostDraws (s : State) (i : RegIdx) (v : Word) : (writeReg s i v).hostDraws = s.hostDraws := by
  unfold writeReg; split <;> rfl

/-! ### emit touches the two streams only -/

@[simp] theorem emit_regs (s : State) (fd : Word) (bs : List Byte) : (emit s fd bs).regs = s.regs := by
  unfold emit; repeat' split
  all_goals rfl
@[simp] theorem emit_pc (s : State) (fd : Word) (bs : List Byte) : (emit s fd bs).pc = s.pc := by
  unfold emit; repeat' split
  all_goals rfl
@[simp] theorem emit_cycle (s : State) (fd : Word) (bs : List Byte) : (emit s fd bs).cycle = s.cycle := by
  unfold emit; repeat' split
  all_goals rfl
@[simp] theorem emit_mem (s : State) (fd : Word) (bs : List Byte) : (emit s fd bs).mem = s.mem := by
  unfold emit; repeat' split
  all_goals rfl
@[simp] theorem emit_cfg (s : State) (fd : Word) (bs : List Byte) : (emit s fd bs).cfg = s.cfg := by
  unfold emit; repeat' split
  all_goals rfl
@[simp] theorem emit_halt (s : State) (fd : Word) (bs : List Byte) : (emit s fd bs).halt = s.halt := by
  unfold emit; repeat' split
  all_goals rfl
@[simp] theorem emit_hostAnswers (s : State) (fd : Word) (bs : List Byte) : (emit s fd bs).hostAnswers = s.hostAnswers := by
  unfold emit; repeat' split
  all_goals rfl
@[simp] theorem emit_hostDraws (s : State) (fd : Word) (bs : List Byte) : (emit s fd bs).hostDraws = s.hostDraws := by
  unfold emit; repeat' split
  all_goals rfl
@[simp] theorem readReg_emit (s : State) (fd : Word) (bs : List Byte) (i : RegIdx) : readReg (emit s fd bs) i = readReg s i := by
  simp [readReg]

theorem emit_stdout (s : State) (fd : Word) (bs : List Byte) :
    (emit s fd bs).stdout = if fd = 1#32 then s.stdout ++ bs else s.stdout := by
  unfold emit; repeat' split
  all_goals rfl

theorem emit_stderr (s : State) (fd : Word) (bs : List Byte) :
    (emit s fd bs).stderr = if fd = 2#32 then s.stderr ++ bs else s.stderr := by
  unfold emit
  by_cases h1 : fd = 1#32
  · subst h1; rfl
  · simp only [h1, if_false]; split <;> rfl

/-! ### dropAnswer touches the host's answers only -/

@[simp] theorem dropAnswer_regs (s : State) : (dropAnswer s).regs = s.regs := by
  unfold dropAnswer; split <;> rfl
@[simp] theorem dropAnswer_pc (s : State) : (dropAnswer s).pc = s.pc := by
  unfold dropAnswer; split <;> rfl
@[simp] theorem dropAnswer_cycle (s : State) : (dropAnswer s).cycle = s.cycle := by
  unfold dropAnswer; split <;> rfl
@[simp] theorem dropAnswer_mem (s : State) : (dropAnswer s).mem = s.mem := by
  unfold dropAnswer; split <;> rfl
@[simp] theorem dropAnswer_cfg (s : State) : (dropAnswer s).cfg = s.cfg := by
  unfold dropAnswer; split <;> rfl
@[simp] theorem dropAnswer_stdout (s : State) : (dropAnswer s).stdout = s.stdout := by
  unfold dropAnswer; split <;> rfl
@[simp] theorem dropAnswer_stderr (s : State) : (dropAnswer s).stderr = s.stderr := by
  unfold dropAnswer; split <;> rfl
@[simp] theorem dropAnswer_halt (s : State) : (dropAnswer s).halt = s.halt := by
  unfold dropAnswer; split <;> rfl
@[simp] theorem readReg_dropAnswer (s : State) (i : RegIdx) : readReg (dropAnswer s) i = readReg s i := by
  simp [readReg]

/-! ### Reading a register after writing one (spec/10_state.md R31, R32) -/

/-- x0 reads zero in every state. -/
@[simp] theorem readReg_zero (s : State) : readReg s 0#5 = 0#32 := rfl

/-- Two registers other than x0 share a slot only when they are the same. -/
theorem regSlot_inj {i j : RegIdx} (hi : i ≠ 0#5) (hj : j ≠ 0#5) (h : (regSlot i).val = (regSlot j).val) : i = j := by
  have hi' : i.toNat ≠ 0 := fun c => hi (BitVec.eq_of_toNat_eq (by simpa using c))
  have hj' : j.toNat ≠ 0 := fun c => hj (BitVec.eq_of_toNat_eq (by simpa using c))
  simp only [regSlot] at h
  exact BitVec.eq_of_toNat_eq (by omega)

/-- What a register holds after a write. -/
theorem readReg_writeReg (s : State) (i j : RegIdx) (v : Word) :
    readReg (writeReg s i v) j = if j = i ∧ i ≠ 0#5 then v else readReg s j := by
  by_cases hj : j = 0#5
  · subst hj
    by_cases hi : (0#5 : RegIdx) = i
    · subst hi; simp
    · simp [hi]
  · by_cases hi : i = 0#5
    · subst hi; simp [writeReg]
    · simp only [readReg, writeReg, hj, hi, if_false]
      by_cases hij : j = i
      · subst hij; simp [hj]
      · have hne : (regSlot i).val ≠ (regSlot j).val := fun c => hij (regSlot_inj hi hj c).symm
        simp [hij, hne]

@[simp] theorem readReg_writeReg_same (s : State) (i : RegIdx) (v : Word) :
    readReg (writeReg s i v) i = if i = 0#5 then 0#32 else v := by
  rw [readReg_writeReg]
  by_cases h : i = 0#5
  · subst h; simp
  · simp [h]

theorem readReg_writeReg_of_ne (s : State) {i j : RegIdx} (v : Word) (h : j ≠ i) :
    readReg (writeReg s i v) j = readReg s j := by simp [readReg_writeReg, h]

/-! ### The reset state (spec/10_state.md R49) -/

/-- Every register reads zero after reset. -/
@[simp] theorem readReg_reset (i : RegIdx) : readReg State.reset i = 0#32 := by
  unfold readReg; split <;> simp [State.reset]

end Sys2Proof.Machine
end

