-- ==== Sys2Proof/Laws/Ops.lean ====
section
/-! SUPPORT. One lemma per shared operation that says everything it can answer, and one for `exec` and for `step`. -/

namespace Sys2Proof.Machine

/-! ### Checked accesses (spec/20_memory.md R61, R62) -/

theorem loadBytes_of_inBounds {s : State} {a : Word} {n : Nat} (h : inBounds s a n) :
    loadBytes s a n = .ok (s.mem.readBytes a.toNat n) := by simp [loadBytes, h]

theorem loadBytes_of_not_inBounds {s : State} {a : Word} {n : Nat} (h : ¬ inBounds s a n) :
    loadBytes s a n = .error (.memoryViolation a) := by simp only [loadBytes, if_neg h]

theorem storeBytes_of_inBounds {s : State} {a : Word} {bs : List Byte} (h : inBounds s a bs.length) :
    storeBytes s a bs = .ok { s with mem := s.mem.writeBytes a.toNat bs } := by simp [storeBytes, h]

theorem storeBytes_of_not_inBounds {s : State} {a : Word} {bs : List Byte} (h : ¬ inBounds s a bs.length) :
    storeBytes s a bs = .error (.memoryViolation a) := by simp only [storeBytes, if_neg h]

theorem memRead_of_inBounds {s : State} {a : Word} {n : Nat} (h : inBounds s a n) :
    memRead s a n = .ok (leWord (s.mem.readBytes a.toNat n)) := by simp [memRead, loadBytes_of_inBounds h]

theorem memRead_of_not_inBounds {s : State} {a : Word} {n : Nat} (h : ¬ inBounds s a n) :
    memRead s a n = .error (.memoryViolation a) := by simp [memRead, loadBytes_of_not_inBounds h]

theorem memWrite_of_inBounds {s : State} {a : Word} {n : Nat} {v : Word} (h : inBounds s a n) :
    memWrite s a n v = .ok { s with mem := s.mem.writeBytes a.toNat (leBytes v n) } :=
  storeBytes_of_inBounds (by simpa using h)

theorem memWrite_of_not_inBounds {s : State} {a : Word} {n : Nat} {v : Word} (h : ¬ inBounds s a n) :
    memWrite s a n v = .error (.memoryViolation a) :=
  storeBytes_of_not_inBounds (by simpa using h)

/-- Memory after a successful store is canonical and inside the buffer if it was before. -/
theorem storeBytes_inv {s t : State} {a : Word} {bs : List Byte} (hs : s.Inv) (h : storeBytes s a bs = .ok t) : t.Inv := by
  by_cases hb : inBounds s a bs.length
  · rw [storeBytes_of_inBounds hb] at h
    cases h
    exact ⟨hs.cfgValid, Memory.writeBytes_wf _ _ hs.memWf, Memory.writeBytes_within hs.memWithin hb⟩
  · rw [storeBytes_of_not_inBounds hb] at h
    cases h

/-! ### The shared operations of the families -/

/-- A load answers the register write, or the violation of its effective address (spec/43_loads.md R210). -/
theorem loadInto_cases (n : Nat) (ext : Word → Word) (rd rs1 : RegIdx) (imm : Word) (s : State) :
    (inBounds s (readReg s rs1 + imm) n ∧ loadInto n ext rd rs1 imm s =
      .next (advance (writeReg s rd (ext (leWord (s.mem.readBytes (readReg s rs1 + imm).toNat n)))))) ∨
    (¬ inBounds s (readReg s rs1 + imm) n ∧ loadInto n ext rd rs1 imm s =
      .fault (.memoryViolation (readReg s rs1 + imm))) := by
  by_cases h : inBounds s (readReg s rs1 + imm) n
  · exact .inl ⟨h, by simp [loadInto, effectiveAddress, memRead_of_inBounds h, writeAndAdvance]⟩
  · exact .inr ⟨h, by simp [loadInto, effectiveAddress, memRead_of_not_inBounds h, raise]⟩

/-- A store answers the memory write, or the violation of its effective address (spec/44_stores.md R230). -/
theorem storeFrom_cases (n : Nat) (rs1 rs2 : RegIdx) (imm : Word) (s : State) :
    (inBounds s (readReg s rs1 + imm) n ∧ storeFrom n rs1 rs2 imm s =
      .next (advance { s with
        mem := s.mem.writeBytes (readReg s rs1 + imm).toNat (leBytes (readReg s rs2) n) })) ∨
    (¬ inBounds s (readReg s rs1 + imm) n ∧ storeFrom n rs1 rs2 imm s =
      .fault (.memoryViolation (readReg s rs1 + imm))) := by
  by_cases h : inBounds s (readReg s rs1 + imm) n
  · exact .inl ⟨h, by simp [storeFrom, effectiveAddress, memWrite_of_inBounds h]⟩
  · exact .inr ⟨h, by simp [storeFrom, effectiveAddress, memWrite_of_not_inBounds h, raise]⟩

/-- A branch answers its target or the next instruction (spec/45_branches.md R250). -/
theorem branchOn_eq (cond : Word → Word → Bool) (rs1 rs2 : RegIdx) (imm : Word) (s : State) :
    branchOn cond rs1 rs2 imm s =
      .next (jump s (if cond (readReg s rs1) (readReg s rs2) then s.pc + imm else s.pc + 4#32)) := by
  unfold branchOn; split <;> rfl

/-- jalr's target by the value of JALR_LINK_BEFORE_READ (spec/46_jumps.md R271). -/
theorem execJalr_eq (rd rs1 : RegIdx) (imm : Word) (s : State) :
    execJalr rd rs1 imm s = .next (jump (writeReg s rd (s.pc + 4#32)) (jalrTarget
      (if s.cfg.jalrLinkBeforeRead then readReg (writeReg s rd (s.pc + 4#32)) rs1 else readReg s rs1) imm)) := by
  unfold execJalr linkAddress; split <;> rfl

/-- Everything the syscall handler can answer (spec/48_system.md R305). -/
theorem handleSyscall_cases (s : State) :
    handleSyscall s = .ok (some (readReg s a0), s) ∨
    (∃ fd bs, handleSyscall s = .ok (none, writeReg (dropAnswer (emit s fd bs)) a0 (readReg s a2))) ∨
    handleSyscall s = .ok (none, writeReg s a0 0#32) ∨
    (∃ a, handleSyscall s = .error (.memoryViolation a)) ∨
    (∃ r, handleSyscall s = .error (.syscallError r)) := by
  unfold handleSyscall
  split
  · exact .inl rfl
  split
  · unfold syscallWrite
    split
    · by_cases h : inBounds s (readReg s a1) (readReg s a2).toNat
      · rw [loadBytes_of_inBounds h]
        cases hh : hostAnswer s with
        | ok => exact .inr (.inl ⟨_, _, rfl⟩)
        | failed n => exact .inr (.inr (.inr (.inr ⟨_, rfl⟩)))
      · rw [loadBytes_of_not_inBounds h]
        exact .inr (.inr (.inr (.inl ⟨_, rfl⟩)))
    · exact .inr (.inr (.inr (.inr ⟨_, rfl⟩)))
  split
  · unfold syscallRead
    split
    · exact .inr (.inr (.inl rfl))
    · exact .inr (.inr (.inr (.inr ⟨_, rfl⟩)))
  · exact .inr (.inr (.inr (.inr ⟨_, rfl⟩)))

/-! ### What executing an instruction can answer -/

/-- The next states an instruction can reach: a register write and a jump (arithmetic, loads, upper immediates, jal,
jalr), a memory write and an advance (stores), a jump alone (branches), or a syscall's. -/
inductive NextShape (s : State) : State → Prop
  | register (rd : RegIdx) (v t : Word) : NextShape s (jump (writeReg s rd v) t)
  | store (a : Word) (bs : List Byte) (h : inBounds s a bs.length) :
      NextShape s (advance { s with mem := s.mem.writeBytes a.toNat bs })
  | control (t : Word) : NextShape s (jump s t)
  | exit : NextShape s (withHalt (advance s) (some (readReg s a0)))
  | wrote (fd : Word) (bs : List Byte) (v : Word) :
      NextShape s (withHalt (advance (writeReg (dropAnswer (emit s fd bs)) a0 v)) none)
  | readNone : NextShape s (withHalt (advance (writeReg s a0 0#32)) none)

/-- What `exec` can answer: a next state of one of those shapes, or an error a step may raise. It never refuses. -/
inductive Answer (s : State) : Result → Prop
  | next {t : State} (h : NextShape s t) : Answer s (.next t)
  | fault {e : Fault} (h : stepFault e = true) : Answer s (.fault e)

theorem writeAndAdvance_answer (s : State) (rd : RegIdx) (v : Word) : Answer s (writeAndAdvance s rd v) := by
  have h : advance (writeReg s rd v) = jump (writeReg s rd v) (s.pc + 4#32) := by simp [advance]
  rw [writeAndAdvance, h]
  exact .next (.register rd v _)

theorem loadInto_answer (n : Nat) (ext : Word → Word) (rd rs1 : RegIdx) (imm : Word) (s : State) :
    Answer s (loadInto n ext rd rs1 imm s) := by
  rcases loadInto_cases n ext rd rs1 imm s with ⟨-, h⟩ | ⟨-, h⟩
  · rw [h]; exact writeAndAdvance_answer s rd _
  · rw [h]; exact .fault rfl

theorem storeFrom_answer (n : Nat) (rs1 rs2 : RegIdx) (imm : Word) (s : State) :
    Answer s (storeFrom n rs1 rs2 imm s) := by
  rcases storeFrom_cases n rs1 rs2 imm s with ⟨hb, h⟩ | ⟨-, h⟩
  · rw [h]; exact .next (.store _ _ (by simpa using hb))
  · rw [h]; exact .fault rfl

theorem branchOn_answer (cond : Word → Word → Bool) (rs1 rs2 : RegIdx) (imm : Word) (s : State) :
    Answer s (branchOn cond rs1 rs2 imm s) := by
  rw [branchOn_eq]; exact .next (.control _)

theorem execEcall_answer (s : State) : Answer s (execEcall s) := by
  unfold execEcall
  rcases handleSyscall_cases s with h | ⟨fd, bs, h⟩ | h | ⟨a, h⟩ | ⟨r, h⟩ <;> rw [h]
  · exact .next .exit
  · exact .next (.wrote fd bs _)
  · exact .next .readNone
  · exact .fault rfl
  · exact .fault rfl

/-- Everything `exec` can answer. -/
theorem exec_answer (i : Instr) (s : State) : Answer s (exec i s) := by
  cases i with
  | lb rd rs1 imm => exact loadInto_answer _ _ _ _ _ _
  | lh rd rs1 imm => exact loadInto_answer _ _ _ _ _ _
  | lw rd rs1 imm => exact loadInto_answer _ _ _ _ _ _
  | lbu rd rs1 imm => exact loadInto_answer _ _ _ _ _ _
  | lhu rd rs1 imm => exact loadInto_answer _ _ _ _ _ _
  | sb rs1 rs2 imm => exact storeFrom_answer _ _ _ _ _
  | sh rs1 rs2 imm => exact storeFrom_answer _ _ _ _ _
  | sw rs1 rs2 imm => exact storeFrom_answer _ _ _ _ _
  | beq rs1 rs2 imm => exact branchOn_answer _ _ _ _ _
  | bne rs1 rs2 imm => exact branchOn_answer _ _ _ _ _
  | blt rs1 rs2 imm => exact branchOn_answer _ _ _ _ _
  | bge rs1 rs2 imm => exact branchOn_answer (fun a b => !signedLt a b) rs1 rs2 imm s
  | bltu rs1 rs2 imm => exact branchOn_answer _ _ _ _ _
  | bgeu rs1 rs2 imm => exact branchOn_answer (fun a b => !unsignedLt a b) rs1 rs2 imm s
  | jal rd imm => exact .next (.register _ _ _)
  | jalr rd rs1 imm => rw [show exec (.jalr rd rs1 imm) s = _ from execJalr_eq rd rs1 imm s]; exact .next (.register _ _ _)
  | ecall => exact execEcall_answer s
  | ebreak => exact .fault rfl
  | _ => exact writeAndAdvance_answer _ _ _

/-- The next state of an instruction has one of the shapes. -/
theorem exec_next_shape {i : Instr} {s t : State} (h : exec i s = .next t) : NextShape s t := by
  have := exec_answer i s
  rw [h] at this
  cases this
  assumption

/-! ### An instruction or a step as the host sees it -/

/-- A well-formed instruction is executed. -/
theorem executeInstruction_of_wf {i : Instr} (s : State) (h : i.wf = true) :
    executeInstruction i s = hostView s (exec i s) := if_pos h

/-- Any other record is refused and changes nothing. -/
theorem executeInstruction_of_not_wf {i : Instr} (s : State) (h : i.wf = false) :
    executeInstruction i s = (.refused .notDecoded, s) := by simp [executeInstruction, h]

/-- An error leaves every register as it was. -/
@[simp] theorem readReg_afterError (s : State) (e : Fault) (r : RegIdx) : readReg (afterError s e) r = readReg s r := by
  unfold afterError; split <;> simp
@[simp] theorem afterError_pc (s : State) (e : Fault) : (afterError s e).pc = s.pc := by unfold afterError; split <;> simp
@[simp] theorem afterError_cycle (s : State) (e : Fault) : (afterError s e).cycle = s.cycle := by
  unfold afterError; split <;> simp
@[simp] theorem afterError_mem (s : State) (e : Fault) : (afterError s e).mem = s.mem := by unfold afterError; split <;> simp
@[simp] theorem afterError_cfg (s : State) (e : Fault) : (afterError s e).cfg = s.cfg := by unfold afterError; split <;> simp

/-- Everything the host's view of a result can be: the next state, the state after an error, or the state itself. -/
theorem hostView_cases (s : State) (r : Result) :
    (∃ t, r = .next t ∧ (hostView s r).2 = t) ∨ (∃ e, r = .fault e ∧ hostView s r = (.error e, afterError s e)) ∨
    ∃ q, r = .refused q ∧ hostView s r = (.refused q, s) := by
  cases r with
  | next t => exact .inl ⟨t, rfl, by unfold hostView; dsimp only; split <;> rfl⟩
  | fault e => exact .inr (.inl ⟨e, rfl, rfl⟩)
  | refused q => exact .inr (.inr ⟨q, rfl, rfl⟩)

/-! ### Fetch and step -/

theorem fetch_of_inBounds {s : State} (h : inBounds s s.pc 4) : fetch s = .ok (leWord (s.mem.readBytes s.pc.toNat 4)) :=
  memRead_of_inBounds h

theorem fetch_of_not_inBounds {s : State} (h : ¬ inBounds s s.pc 4) : fetch s = .error (.memoryViolation s.pc) :=
  memRead_of_not_inBounds h

/-- A step that completes executed the instruction its fetched word decodes to. -/
theorem step_next {s t : State} (h : step s = .next t) :
    ∃ w i, fetch s = .ok w ∧ decode w = .ok i ∧ exec i s = .next t := by
  unfold step at h
  split at h
  · cases h
  · rename_i w hw
    split at h
    · cases h
    · rename_i i hi; exact ⟨w, i, hw, hi, h⟩

/-- The next state of a step has one of the shapes of an instruction's. -/
theorem step_next_shape {s t : State} (h : step s = .next t) : NextShape s t := by
  obtain ⟨w, i, -, -, hi⟩ := step_next h
  exact exec_next_shape hi

/-- A fetched word that decodes is executed. -/
theorem step_of_decode {s : State} {w : Word} {i : Instr} (hf : fetch s = .ok w) (hd : decode w = .ok i) :
    step s = exec i s := by simp [step, hf, hd]

end Sys2Proof.Machine
end

