-- ==== Sys2Proof/Laws/PerInstr.lean ====
section
/-! SUPPORT. A statement made instruction by instruction: every encoded word matches its row of spec/opcode_table.json
(spec/30_encoding.md R100 to R107). -/

namespace Sys2Proof.Laws.EncodesTableRow

/-- The mask of the instruction's row: the bits its encoding fixes. -/
def rowMask : Instr → Word
  | .add _ _ _ => 0xFE00707F#32
  | .sub _ _ _ => 0xFE00707F#32
  | .sll _ _ _ => 0xFE00707F#32
  | .slt _ _ _ => 0xFE00707F#32
  | .sltu _ _ _ => 0xFE00707F#32
  | .xor _ _ _ => 0xFE00707F#32
  | .srl _ _ _ => 0xFE00707F#32
  | .sra _ _ _ => 0xFE00707F#32
  | .or _ _ _ => 0xFE00707F#32
  | .and _ _ _ => 0xFE00707F#32
  | .addi _ _ _ => 0x0000707F#32
  | .slti _ _ _ => 0x0000707F#32
  | .sltiu _ _ _ => 0x0000707F#32
  | .xori _ _ _ => 0x0000707F#32
  | .ori _ _ _ => 0x0000707F#32
  | .andi _ _ _ => 0x0000707F#32
  | .slli _ _ _ => 0xFE00707F#32
  | .srli _ _ _ => 0xFE00707F#32
  | .srai _ _ _ => 0xFE00707F#32
  | .lb _ _ _ => 0x0000707F#32
  | .lh _ _ _ => 0x0000707F#32
  | .lw _ _ _ => 0x0000707F#32
  | .lbu _ _ _ => 0x0000707F#32
  | .lhu _ _ _ => 0x0000707F#32
  | .sb _ _ _ => 0x0000707F#32
  | .sh _ _ _ => 0x0000707F#32
  | .sw _ _ _ => 0x0000707F#32
  | .beq _ _ _ => 0x0000707F#32
  | .bne _ _ _ => 0x0000707F#32
  | .blt _ _ _ => 0x0000707F#32
  | .bge _ _ _ => 0x0000707F#32
  | .bltu _ _ _ => 0x0000707F#32
  | .bgeu _ _ _ => 0x0000707F#32
  | .jal _ _ => 0x0000007F#32
  | .jalr _ _ _ => 0x0000707F#32
  | .lui _ _ => 0x0000007F#32
  | .auipc _ _ => 0x0000007F#32
  | .ecall => 0xFFFFFFFF#32
  | .ebreak => 0xFFFFFFFF#32

/-- The match of the instruction's row: the values of those bits. -/
def rowMatch : Instr → Word
  | .add _ _ _ => 0x00000033#32
  | .sub _ _ _ => 0x40000033#32
  | .sll _ _ _ => 0x00001033#32
  | .slt _ _ _ => 0x00002033#32
  | .sltu _ _ _ => 0x00003033#32
  | .xor _ _ _ => 0x00004033#32
  | .srl _ _ _ => 0x00005033#32
  | .sra _ _ _ => 0x40005033#32
  | .or _ _ _ => 0x00006033#32
  | .and _ _ _ => 0x00007033#32
  | .addi _ _ _ => 0x00000013#32
  | .slti _ _ _ => 0x00002013#32
  | .sltiu _ _ _ => 0x00003013#32
  | .xori _ _ _ => 0x00004013#32
  | .ori _ _ _ => 0x00006013#32
  | .andi _ _ _ => 0x00007013#32
  | .slli _ _ _ => 0x00001013#32
  | .srli _ _ _ => 0x00005013#32
  | .srai _ _ _ => 0x40005013#32
  | .lb _ _ _ => 0x00000003#32
  | .lh _ _ _ => 0x00001003#32
  | .lw _ _ _ => 0x00002003#32
  | .lbu _ _ _ => 0x00004003#32
  | .lhu _ _ _ => 0x00005003#32
  | .sb _ _ _ => 0x00000023#32
  | .sh _ _ _ => 0x00001023#32
  | .sw _ _ _ => 0x00002023#32
  | .beq _ _ _ => 0x00000063#32
  | .bne _ _ _ => 0x00001063#32
  | .blt _ _ _ => 0x00004063#32
  | .bge _ _ _ => 0x00005063#32
  | .bltu _ _ _ => 0x00006063#32
  | .bgeu _ _ _ => 0x00007063#32
  | .jal _ _ => 0x0000006F#32
  | .jalr _ _ _ => 0x00000067#32
  | .lui _ _ => 0x00000037#32
  | .auipc _ _ => 0x00000017#32
  | .ecall => 0x00000073#32
  | .ebreak => 0x00100073#32

/-- The instruction's word has its row's fixed bits. -/
def Statement (i : Instr) : Prop := encode i &&& rowMask i = rowMatch i

/-! ### The fixed bits of each format -/

theorem encodeR_fixed (f7 : BitVec 7) (f3 : BitVec 3) (op : BitVec 7) (rd rs1 rs2 : RegIdx) :
    encodeR f7 f3 op rd rs1 rs2 &&& 0xFE00707F#32 = (f7 ++ 0#10 ++ f3 ++ 0#5 ++ op : Word) := by
  refine BitVec.eq_of_getLsbD_eq fun i hi => ?_
  simp only [encodeR, BitVec.getLsbD_and, BitVec.getLsbD_append, BitVec.getLsbD_ofNat]
  interval_cases i <;> simp <;> exact fun _ => by decide

theorem encodeI_fixed (f3 : BitVec 3) (op : BitVec 7) (rd rs1 : RegIdx) (imm : Word) :
    encodeI f3 op rd rs1 imm &&& 0x0000707F#32 = (0#17 ++ f3 ++ 0#5 ++ op : Word) := by
  refine BitVec.eq_of_getLsbD_eq fun i hi => ?_
  simp only [encodeI, field, BitVec.getLsbD_and, BitVec.getLsbD_append, BitVec.getLsbD_extractLsb', BitVec.getLsbD_ofNat]
  interval_cases i <;> simp <;> exact fun _ => by decide

theorem encodeS_fixed (f3 : BitVec 3) (op : BitVec 7) (rs1 rs2 : RegIdx) (imm : Word) :
    encodeS f3 op rs1 rs2 imm &&& 0x0000707F#32 = (0#17 ++ f3 ++ 0#5 ++ op : Word) := by
  refine BitVec.eq_of_getLsbD_eq fun i hi => ?_
  simp only [encodeS, field, BitVec.getLsbD_and, BitVec.getLsbD_append, BitVec.getLsbD_extractLsb', BitVec.getLsbD_ofNat]
  interval_cases i <;> simp <;> exact fun _ => by decide

theorem encodeB_fixed (f3 : BitVec 3) (op : BitVec 7) (rs1 rs2 : RegIdx) (imm : Word) :
    encodeB f3 op rs1 rs2 imm &&& 0x0000707F#32 = (0#17 ++ f3 ++ 0#5 ++ op : Word) := by
  refine BitVec.eq_of_getLsbD_eq fun i hi => ?_
  simp only [encodeB, field, BitVec.getLsbD_and, BitVec.getLsbD_append, BitVec.getLsbD_extractLsb', BitVec.getLsbD_ofNat]
  interval_cases i <;> simp <;> exact fun _ => by decide

theorem encodeU_fixed (op : BitVec 7) (rd : RegIdx) (imm : Word) :
    encodeU op rd imm &&& 0x0000007F#32 = (0#25 ++ op : Word) := by
  refine BitVec.eq_of_getLsbD_eq fun i hi => ?_
  simp only [encodeU, field, BitVec.getLsbD_and, BitVec.getLsbD_append, BitVec.getLsbD_extractLsb', BitVec.getLsbD_ofNat]
  interval_cases i <;> simp <;> exact fun _ => by decide

theorem encodeJ_fixed (op : BitVec 7) (rd : RegIdx) (imm : Word) :
    encodeJ op rd imm &&& 0x0000007F#32 = (0#25 ++ op : Word) := by
  refine BitVec.eq_of_getLsbD_eq fun i hi => ?_
  simp only [encodeJ, field, BitVec.getLsbD_and, BitVec.getLsbD_append, BitVec.getLsbD_extractLsb', BitVec.getLsbD_ofNat]
  interval_cases i <;> simp <;> exact fun _ => by decide

/-! ### One lemma per instruction -/

theorem add (rd rs1 rs2 : RegIdx) : Statement (.add rd rs1 rs2) := encodeR_fixed 0x00#7 0#3 0x33#7 rd rs1 rs2
theorem sub (rd rs1 rs2 : RegIdx) : Statement (.sub rd rs1 rs2) := encodeR_fixed 0x20#7 0#3 0x33#7 rd rs1 rs2
theorem sll (rd rs1 rs2 : RegIdx) : Statement (.sll rd rs1 rs2) := encodeR_fixed 0x00#7 1#3 0x33#7 rd rs1 rs2
theorem slt (rd rs1 rs2 : RegIdx) : Statement (.slt rd rs1 rs2) := encodeR_fixed 0x00#7 2#3 0x33#7 rd rs1 rs2
theorem sltu (rd rs1 rs2 : RegIdx) : Statement (.sltu rd rs1 rs2) := encodeR_fixed 0x00#7 3#3 0x33#7 rd rs1 rs2
theorem xor (rd rs1 rs2 : RegIdx) : Statement (.xor rd rs1 rs2) := encodeR_fixed 0x00#7 4#3 0x33#7 rd rs1 rs2
theorem srl (rd rs1 rs2 : RegIdx) : Statement (.srl rd rs1 rs2) := encodeR_fixed 0x00#7 5#3 0x33#7 rd rs1 rs2
theorem sra (rd rs1 rs2 : RegIdx) : Statement (.sra rd rs1 rs2) := encodeR_fixed 0x20#7 5#3 0x33#7 rd rs1 rs2
theorem or (rd rs1 rs2 : RegIdx) : Statement (.or rd rs1 rs2) := encodeR_fixed 0x00#7 6#3 0x33#7 rd rs1 rs2
theorem and (rd rs1 rs2 : RegIdx) : Statement (.and rd rs1 rs2) := encodeR_fixed 0x00#7 7#3 0x33#7 rd rs1 rs2
theorem addi (rd rs1 : RegIdx) (imm : Word) : Statement (.addi rd rs1 imm) := encodeI_fixed 0#3 0x13#7 rd rs1 imm
theorem slti (rd rs1 : RegIdx) (imm : Word) : Statement (.slti rd rs1 imm) := encodeI_fixed 2#3 0x13#7 rd rs1 imm
theorem sltiu (rd rs1 : RegIdx) (imm : Word) : Statement (.sltiu rd rs1 imm) := encodeI_fixed 3#3 0x13#7 rd rs1 imm
theorem xori (rd rs1 : RegIdx) (imm : Word) : Statement (.xori rd rs1 imm) := encodeI_fixed 4#3 0x13#7 rd rs1 imm
theorem ori (rd rs1 : RegIdx) (imm : Word) : Statement (.ori rd rs1 imm) := encodeI_fixed 6#3 0x13#7 rd rs1 imm
theorem andi (rd rs1 : RegIdx) (imm : Word) : Statement (.andi rd rs1 imm) := encodeI_fixed 7#3 0x13#7 rd rs1 imm
theorem slli (rd rs1 : RegIdx) (shamt : BitVec 5) : Statement (.slli rd rs1 shamt) := encodeR_fixed 0x00#7 1#3 0x13#7 rd rs1 shamt
theorem srli (rd rs1 : RegIdx) (shamt : BitVec 5) : Statement (.srli rd rs1 shamt) := encodeR_fixed 0x00#7 5#3 0x13#7 rd rs1 shamt
theorem srai (rd rs1 : RegIdx) (shamt : BitVec 5) : Statement (.srai rd rs1 shamt) := encodeR_fixed 0x20#7 5#3 0x13#7 rd rs1 shamt
theorem lb (rd rs1 : RegIdx) (imm : Word) : Statement (.lb rd rs1 imm) := encodeI_fixed 0#3 0x03#7 rd rs1 imm
theorem lh (rd rs1 : RegIdx) (imm : Word) : Statement (.lh rd rs1 imm) := encodeI_fixed 1#3 0x03#7 rd rs1 imm
theorem lw (rd rs1 : RegIdx) (imm : Word) : Statement (.lw rd rs1 imm) := encodeI_fixed 2#3 0x03#7 rd rs1 imm
theorem lbu (rd rs1 : RegIdx) (imm : Word) : Statement (.lbu rd rs1 imm) := encodeI_fixed 4#3 0x03#7 rd rs1 imm
theorem lhu (rd rs1 : RegIdx) (imm : Word) : Statement (.lhu rd rs1 imm) := encodeI_fixed 5#3 0x03#7 rd rs1 imm
theorem sb (rs1 rs2 : RegIdx) (imm : Word) : Statement (.sb rs1 rs2 imm) := encodeS_fixed 0#3 0x23#7 rs1 rs2 imm
theorem sh (rs1 rs2 : RegIdx) (imm : Word) : Statement (.sh rs1 rs2 imm) := encodeS_fixed 1#3 0x23#7 rs1 rs2 imm
theorem sw (rs1 rs2 : RegIdx) (imm : Word) : Statement (.sw rs1 rs2 imm) := encodeS_fixed 2#3 0x23#7 rs1 rs2 imm
theorem beq (rs1 rs2 : RegIdx) (imm : Word) : Statement (.beq rs1 rs2 imm) := encodeB_fixed 0#3 0x63#7 rs1 rs2 imm
theorem bne (rs1 rs2 : RegIdx) (imm : Word) : Statement (.bne rs1 rs2 imm) := encodeB_fixed 1#3 0x63#7 rs1 rs2 imm
theorem blt (rs1 rs2 : RegIdx) (imm : Word) : Statement (.blt rs1 rs2 imm) := encodeB_fixed 4#3 0x63#7 rs1 rs2 imm
theorem bge (rs1 rs2 : RegIdx) (imm : Word) : Statement (.bge rs1 rs2 imm) := encodeB_fixed 5#3 0x63#7 rs1 rs2 imm
theorem bltu (rs1 rs2 : RegIdx) (imm : Word) : Statement (.bltu rs1 rs2 imm) := encodeB_fixed 6#3 0x63#7 rs1 rs2 imm
theorem bgeu (rs1 rs2 : RegIdx) (imm : Word) : Statement (.bgeu rs1 rs2 imm) := encodeB_fixed 7#3 0x63#7 rs1 rs2 imm
theorem jal (rd : RegIdx) (imm : Word) : Statement (.jal rd imm) := encodeJ_fixed 0x6F#7 rd imm
theorem jalr (rd rs1 : RegIdx) (imm : Word) : Statement (.jalr rd rs1 imm) := encodeI_fixed 0#3 0x67#7 rd rs1 imm
theorem lui (rd : RegIdx) (imm : Word) : Statement (.lui rd imm) := encodeU_fixed 0x37#7 rd imm
theorem auipc (rd : RegIdx) (imm : Word) : Statement (.auipc rd imm) := encodeU_fixed 0x17#7 rd imm
theorem ecall : Statement .ecall := by unfold Statement; rfl
theorem ebreak : Statement .ebreak := by unfold Statement; rfl

end Sys2Proof.Laws.EncodesTableRow
end

