-- ==== Sys2Proof/Tests/Slice0.lean ====
section
/-! SUPPORT. The model's own tests, each one step or less, expected results from spec/95_test_vectors.md (named by their
ids) or worked out from the spec's rules, and the witnesses of the statements' hypotheses. -/

namespace Sys2Proof.Tests

open Sys2Proof.Machine Sys2Proof.Spec

/-! ### Helpers -/

/-- A state with a configuration, a PC, some registers and some bytes; the rest as after reset. -/
def startAt (c : VmConfig) (pc : Word) (regs : List (RegIdx × Word)) (bytes : List Host.Cell) : State :=
  regs.foldl (fun s p => writeReg s p.1 p.2) { construct c with pc := pc, mem := bytes.foldl (fun m p => m.write p.1 p.2) [] }

/-- One step with a word placed where the step fetches. -/
def runWord (s : State) (w : Word) : Result := step (s.withFetchWord 32 w.toNat)

/-- What a test looks at in a next state: some registers and bytes, PC, CYCLE and the outcome. -/
structure Seen where
  regs : List Word
  bytes : List Byte
  pc : Word
  cycle : CycleCount
  halt : Option Word
deriving DecidableEq, Repr

def seen (r : Result) (regs : List RegIdx) (addrs : List Nat) : Option Seen :=
  match r with
  | .next t => some ⟨regs.map (readReg t), addrs.map t.mem.read, t.pc, t.cycle, t.halt⟩
  | _ => none

def faultOf (r : Result) : Option Fault :=
  match r with
  | .fault e => some e
  | _ => none

/-- The word is rejected with the word as the error's payload. -/
def rejects (w : Word) : Bool :=
  match decode w with
  | .error (.invalidInstruction v) => v = w
  | _ => false

/-! ### WellFormed refuses what no encoding can carry, check by check -/

theorem test_wf_imm12_high : Instr.wf (.addi 1#5 0#5 2048#32) = false := by decide
theorem test_wf_imm12_low : Instr.wf (.sw 1#5 0#5 (-2049#32)) = false := by decide
theorem test_wf_imm12_ends : (Instr.wf (.lw 1#5 0#5 2047#32) && Instr.wf (.jalr 1#5 0#5 (-2048#32))) = true := by decide
theorem test_wf_branch_odd : Instr.wf (.beq 1#5 2#5 3#32) = false := by decide
theorem test_wf_branch_high : Instr.wf (.bgeu 1#5 2#5 4096#32) = false := by decide
theorem test_wf_branch_low : Instr.wf (.blt 1#5 2#5 (-4098#32)) = false := by decide
theorem test_wf_jump_odd : Instr.wf (.jal 1#5 1#32) = false := by decide
theorem test_wf_jump_high : Instr.wf (.jal 1#5 1048576#32) = false := by decide
theorem test_wf_jump_low : Instr.wf (.jal 1#5 (-1048578#32)) = false := by decide
theorem test_wf_upper_low_bits : Instr.wf (.lui 1#5 0x12345001#32) = false := by decide

/-! ### Decoding: each instruction's word written out from the encoding tables of spec/30_encoding.md (R92, R100 to R107);
the words are the ones the rules' own examples give -/

theorem test_decode_add :
    decodeTableWord 32 (0b0000000#7 ++ 0b00010#5 ++ 0b00001#5 ++ 0b000#3 ++ 0b00011#5 ++ 0b0110011#7 : Word).toNat = some (.add 3#5 1#5 2#5) := by decide

theorem test_decode_sub :
    decodeTableWord 32 (0b0100000#7 ++ 0b00010#5 ++ 0b00001#5 ++ 0b000#3 ++ 0b00011#5 ++ 0b0110011#7 : Word).toNat = some (.sub 3#5 1#5 2#5) := by decide

theorem test_decode_sll :
    decodeTableWord 32 (0b0000000#7 ++ 0b00010#5 ++ 0b00001#5 ++ 0b001#3 ++ 0b00011#5 ++ 0b0110011#7 : Word).toNat = some (.sll 3#5 1#5 2#5) := by decide

theorem test_decode_slt :
    decodeTableWord 32 (0b0000000#7 ++ 0b00010#5 ++ 0b00001#5 ++ 0b010#3 ++ 0b00011#5 ++ 0b0110011#7 : Word).toNat = some (.slt 3#5 1#5 2#5) := by decide

theorem test_decode_sltu :
    decodeTableWord 32 (0b0000000#7 ++ 0b00010#5 ++ 0b00001#5 ++ 0b011#3 ++ 0b00011#5 ++ 0b0110011#7 : Word).toNat = some (.sltu 3#5 1#5 2#5) := by decide

theorem test_decode_xor :
    decodeTableWord 32 (0b0000000#7 ++ 0b00010#5 ++ 0b00001#5 ++ 0b100#3 ++ 0b00011#5 ++ 0b0110011#7 : Word).toNat = some (.xor 3#5 1#5 2#5) := by decide

theorem test_decode_srl :
    decodeTableWord 32 (0b0000000#7 ++ 0b00010#5 ++ 0b00001#5 ++ 0b101#3 ++ 0b00011#5 ++ 0b0110011#7 : Word).toNat = some (.srl 3#5 1#5 2#5) := by decide

theorem test_decode_sra :
    decodeTableWord 32 (0b0100000#7 ++ 0b00010#5 ++ 0b00001#5 ++ 0b101#3 ++ 0b00011#5 ++ 0b0110011#7 : Word).toNat = some (.sra 3#5 1#5 2#5) := by decide

theorem test_decode_or :
    decodeTableWord 32 (0b0000000#7 ++ 0b00010#5 ++ 0b00001#5 ++ 0b110#3 ++ 0b00011#5 ++ 0b0110011#7 : Word).toNat = some (.or 3#5 1#5 2#5) := by decide

theorem test_decode_and :
    decodeTableWord 32 (0b0000000#7 ++ 0b00010#5 ++ 0b00001#5 ++ 0b111#3 ++ 0b00011#5 ++ 0b0110011#7 : Word).toNat = some (.and 3#5 1#5 2#5) := by decide

theorem test_decode_addi :
    decodeTableWord 32 (0b111111111111#12 ++ 0b00110#5 ++ 0b000#3 ++ 0b00101#5 ++ 0b0010011#7 : Word).toNat = some (.addi 5#5 6#5 (-1#32)) := by decide

theorem test_decode_slti :
    decodeTableWord 32 (0b111111111111#12 ++ 0b00110#5 ++ 0b010#3 ++ 0b00101#5 ++ 0b0010011#7 : Word).toNat = some (.slti 5#5 6#5 (-1#32)) := by decide

theorem test_decode_sltiu :
    decodeTableWord 32 (0b000000000001#12 ++ 0b00110#5 ++ 0b011#3 ++ 0b00101#5 ++ 0b0010011#7 : Word).toNat = some (.sltiu 5#5 6#5 1#32) := by decide

theorem test_decode_xori :
    decodeTableWord 32 (0b111111111111#12 ++ 0b00110#5 ++ 0b100#3 ++ 0b00101#5 ++ 0b0010011#7 : Word).toNat = some (.xori 5#5 6#5 (-1#32)) := by decide

theorem test_decode_ori :
    decodeTableWord 32 (0b000000110100#12 ++ 0b00110#5 ++ 0b110#3 ++ 0b00101#5 ++ 0b0010011#7 : Word).toNat = some (.ori 5#5 6#5 52#32) := by decide

theorem test_decode_andi :
    decodeTableWord 32 (0b000011111111#12 ++ 0b00110#5 ++ 0b111#3 ++ 0b00101#5 ++ 0b0010011#7 : Word).toNat = some (.andi 5#5 6#5 255#32) := by decide

theorem test_decode_slli :
    decodeTableWord 32 (0b0000000#7 ++ 0b00011#5 ++ 0b00110#5 ++ 0b001#3 ++ 0b00101#5 ++ 0b0010011#7 : Word).toNat = some (.slli 5#5 6#5 3#5) := by decide

theorem test_decode_srli :
    decodeTableWord 32 (0b0000000#7 ++ 0b00011#5 ++ 0b00110#5 ++ 0b101#3 ++ 0b00101#5 ++ 0b0010011#7 : Word).toNat = some (.srli 5#5 6#5 3#5) := by decide

theorem test_decode_srai :
    decodeTableWord 32 (0b0100000#7 ++ 0b00011#5 ++ 0b00110#5 ++ 0b101#3 ++ 0b00101#5 ++ 0b0010011#7 : Word).toNat = some (.srai 5#5 6#5 3#5) := by decide

theorem test_decode_lb :
    decodeTableWord 32 (0b000000000001#12 ++ 0b00010#5 ++ 0b000#3 ++ 0b00101#5 ++ 0b0000011#7 : Word).toNat = some (.lb 5#5 2#5 1#32) := by decide

theorem test_decode_lh :
    decodeTableWord 32 (0b000000000001#12 ++ 0b00010#5 ++ 0b001#3 ++ 0b00101#5 ++ 0b0000011#7 : Word).toNat = some (.lh 5#5 2#5 1#32) := by decide

theorem test_decode_lw :
    decodeTableWord 32 (0b111111111110#12 ++ 0b00010#5 ++ 0b010#3 ++ 0b00101#5 ++ 0b0000011#7 : Word).toNat = some (.lw 5#5 2#5 (-2#32)) := by decide

theorem test_decode_lbu :
    decodeTableWord 32 (0b000000000000#12 ++ 0b00010#5 ++ 0b100#3 ++ 0b00101#5 ++ 0b0000011#7 : Word).toNat = some (.lbu 5#5 2#5 0#32) := by decide

theorem test_decode_lhu :
    decodeTableWord 32 (0b000000000000#12 ++ 0b00010#5 ++ 0b101#3 ++ 0b00101#5 ++ 0b0000011#7 : Word).toNat = some (.lhu 5#5 2#5 0#32) := by decide

theorem test_decode_sb :
    decodeTableWord 32 (0b1111111#7 ++ 0b00101#5 ++ 0b00010#5 ++ 0b000#3 ++ 0b11111#5 ++ 0b0100011#7 : Word).toNat = some (.sb 2#5 5#5 (-1#32)) := by decide

theorem test_decode_sh :
    decodeTableWord 32 (0b0000000#7 ++ 0b00101#5 ++ 0b00010#5 ++ 0b001#3 ++ 0b00001#5 ++ 0b0100011#7 : Word).toNat = some (.sh 2#5 5#5 1#32) := by decide

theorem test_decode_sw :
    decodeTableWord 32 (0b1111111#7 ++ 0b00010#5 ++ 0b00010#5 ++ 0b010#3 ++ 0b11100#5 ++ 0b0100011#7 : Word).toNat = some (.sw 2#5 2#5 (-4#32)) := by decide

theorem test_decode_beq :
    decodeTableWord 32 (0b1#1 ++ 0b111111#6 ++ 0b00010#5 ++ 0b00001#5 ++ 0b000#3 ++ 0b1100#4 ++ 0b1#1 ++ 0b1100011#7 : Word).toNat = some (.beq 1#5 2#5 (-8#32)) := by decide

theorem test_decode_bne :
    decodeTableWord 32 (0b0#1 ++ 0b111111#6 ++ 0b00010#5 ++ 0b00001#5 ++ 0b001#3 ++ 0b1111#4 ++ 0b1#1 ++ 0b1100011#7 : Word).toNat = some (.bne 1#5 2#5 4094#32) := by decide

theorem test_decode_blt :
    decodeTableWord 32 (0b1#1 ++ 0b000000#6 ++ 0b00010#5 ++ 0b00001#5 ++ 0b100#3 ++ 0b0000#4 ++ 0b0#1 ++ 0b1100011#7 : Word).toNat = some (.blt 1#5 2#5 (-4096#32)) := by decide

theorem test_decode_bge :
    decodeTableWord 32 (0b0#1 ++ 0b000000#6 ++ 0b00010#5 ++ 0b00001#5 ++ 0b101#3 ++ 0b0100#4 ++ 0b0#1 ++ 0b1100011#7 : Word).toNat = some (.bge 1#5 2#5 8#32) := by decide

theorem test_decode_bltu :
    decodeTableWord 32 (0b1#1 ++ 0b111111#6 ++ 0b00010#5 ++ 0b00001#5 ++ 0b110#3 ++ 0b1100#4 ++ 0b1#1 ++ 0b1100011#7 : Word).toNat = some (.bltu 1#5 2#5 (-8#32)) := by decide

theorem test_decode_bgeu :
    decodeTableWord 32 (0b0#1 ++ 0b000000#6 ++ 0b00010#5 ++ 0b00001#5 ++ 0b111#3 ++ 0b0100#4 ++ 0b0#1 ++ 0b1100011#7 : Word).toNat = some (.bgeu 1#5 2#5 8#32) := by decide

theorem test_decode_jal :
    decodeTableWord 32 (0b0#1 ++ 0b0000000000#10 ++ 0b1#1 ++ 0b00000000#8 ++ 0b00001#5 ++ 0b1101111#7 : Word).toNat = some (.jal 1#5 2048#32) := by decide

theorem test_decode_jalr :
    decodeTableWord 32 (0b000000000011#12 ++ 0b00101#5 ++ 0b000#3 ++ 0b00001#5 ++ 0b1100111#7 : Word).toNat = some (.jalr 1#5 5#5 3#32) := by decide

theorem test_decode_lui :
    decodeTableWord 32 (0b00010010001101000101#20 ++ 0b00101#5 ++ 0b0110111#7 : Word).toNat = some (.lui 5#5 0x12345000#32) := by decide

theorem test_decode_auipc :
    decodeTableWord 32 (0b11111111111111111111#20 ++ 0b00011#5 ++ 0b0010111#7 : Word).toNat = some (.auipc 3#5 0xFFFFF000#32) := by decide

theorem test_decode_ecall :
    decodeTableWord 32 (0b000000000000#12 ++ 0b00000#5 ++ 0b000#3 ++ 0b00000#5 ++ 0b1110011#7 : Word).toNat = some (.ecall) := by decide

theorem test_decode_ebreak :
    decodeTableWord 32 (0b000000000001#12 ++ 0b00000#5 ++ 0b000#3 ++ 0b00000#5 ++ 0b1110011#7 : Word).toNat = some (.ebreak) := by decide

/-! ### Words that no instruction has (spec/95_test_vectors.md V30, spec/30_encoding.md R112) -/

theorem test_decode_rejects_V30_0 :
    [0x00000000#32, 0xFFFFFFFF#32, 0x0000000F#32, 0x0FF0000F#32, 0x02208033#32, 0x40006033#32, 0x80000033#32, 0x40001013#32, 0x02005013#32].all rejects = true := by decide

theorem test_decode_rejects_V30_1 :
    [0x00002067#32, 0x00003003#32, 0x00006003#32, 0x00003023#32, 0x00002063#32, 0x00003063#32, 0x00001073#32, 0x30200073#32, 0x10500073#32].all rejects = true := by decide

theorem test_decode_rejects_V30_2 :
    [0x00200073#32, 0x00000873#32, 0x00008073#32, 0x000080F3#32, 0x00000001#32, 0x0000100B#32, 0x0000202F#32, 0x00000053#32, 0x00000007#32].all rejects = true := by decide

theorem test_decode_rejects_R112 :
    [0x0000100F#32, 0x023100B3#32, 0x40001033#32, 0x02009093#32, 0x00001067#32, 0xC00022F3#32, 0x000000F3#32, 0x0000000B#32, 0x0000002B#32].all rejects = true := by decide

/-! ### One step per vector -/

/-- V41-1: add x3, x1, x2. -/
theorem test_add_V41_1 :
    seen (runWord (startAt VmConfig.default 0x00000100#32 [(1#5, 0xFFFFFFFF#32), (2#5, 0x00000001#32)] []) 0x002081B3#32)
      [3#5] [] =
    some ⟨[0x00000000#32], [], 0x00000104#32, 1#64, none⟩ := by decide

/-- V41-3: add x1, x1, x1. -/
theorem test_add_V41_3 :
    seen (runWord (startAt VmConfig.default 0x00000100#32 [(1#5, 0x40000001#32)] []) 0x001080B3#32)
      [1#5] [] =
    some ⟨[0x80000002#32], [], 0x00000104#32, 1#64, none⟩ := by decide

/-- V41-5: sub x3, x1, x2. -/
theorem test_sub_V41_5 :
    seen (runWord (startAt VmConfig.default 0x00000100#32 [(1#5, 0x00000000#32), (2#5, 0x00000001#32)] []) 0x402081B3#32)
      [3#5] [] =
    some ⟨[0xFFFFFFFF#32], [], 0x00000104#32, 1#64, none⟩ := by decide

/-- V41-7: sub x3, x0, x1. -/
theorem test_sub_V41_7 :
    seen (runWord (startAt VmConfig.default 0x00000100#32 [(1#5, 0x80000000#32)] []) 0x401001B3#32)
      [3#5] [] =
    some ⟨[0x80000000#32], [], 0x00000104#32, 1#64, none⟩ := by decide

/-- V41-9: sll x3, x1, x2 (shift amount 32 uses 0). -/
theorem test_sll_V41_9 :
    seen (runWord (startAt VmConfig.default 0x00000100#32 [(1#5, 0x00000001#32), (2#5, 0x00000020#32)] []) 0x002091B3#32)
      [3#5] [] =
    some ⟨[0x00000001#32], [], 0x00000104#32, 1#64, none⟩ := by decide

/-- V41-10: sll x3, x1, x2 (shift amount 0x21 uses 1). -/
theorem test_sll_V41_10 :
    seen (runWord (startAt VmConfig.default 0x00000100#32 [(1#5, 0x12345678#32), (2#5, 0x00000021#32)] []) 0x002091B3#32)
      [3#5] [] =
    some ⟨[0x2468ACF0#32], [], 0x00000104#32, 1#64, none⟩ := by decide

/-- V41-11: slt x3, x1, x2. -/
theorem test_slt_V41_11 :
    seen (runWord (startAt VmConfig.default 0x00000100#32 [(1#5, 0x80000000#32), (2#5, 0x7FFFFFFF#32)] []) 0x0020A1B3#32)
      [3#5] [] =
    some ⟨[0x00000001#32], [], 0x00000104#32, 1#64, none⟩ := by decide

/-- V41-12: slt x3, x1, x2. -/
theorem test_slt_V41_12 :
    seen (runWord (startAt VmConfig.default 0x00000100#32 [(1#5, 0x00000005#32), (2#5, 0x00000005#32)] []) 0x0020A1B3#32)
      [3#5] [] =
    some ⟨[0x00000000#32], [], 0x00000104#32, 1#64, none⟩ := by decide

/-- V41-13: sltu x3, x1, x2. -/
theorem test_sltu_V41_13 :
    seen (runWord (startAt VmConfig.default 0x00000100#32 [(1#5, 0xFFFFFFFF#32), (2#5, 0x00000000#32)] []) 0x0020B1B3#32)
      [3#5] [] =
    some ⟨[0x00000000#32], [], 0x00000104#32, 1#64, none⟩ := by decide

/-- V41-14: sltu x3, x0, x2 (snez). -/
theorem test_sltu_V41_14 :
    seen (runWord (startAt VmConfig.default 0x00000100#32 [(2#5, 0x00000007#32)] []) 0x002031B3#32)
      [3#5] [] =
    some ⟨[0x00000001#32], [], 0x00000104#32, 1#64, none⟩ := by decide

/-- V41-15: xor x3, x1, x1. -/
theorem test_xor_V41_15 :
    seen (runWord (startAt VmConfig.default 0x00000100#32 [(1#5, 0xDEADBEEF#32)] []) 0x0010C1B3#32)
      [3#5] [] =
    some ⟨[0x00000000#32], [], 0x00000104#32, 1#64, none⟩ := by decide

/-- V41-16: srl x3, x1, x2 (shift amount 0x3F uses 31). -/
theorem test_srl_V41_16 :
    seen (runWord (startAt VmConfig.default 0x00000100#32 [(1#5, 0xFFFFFFFF#32), (2#5, 0x0000003F#32)] []) 0x0020D1B3#32)
      [3#5] [] =
    some ⟨[0x00000001#32], [], 0x00000104#32, 1#64, none⟩ := by decide

/-- V41-17: srl x3, x1, x2. -/
theorem test_srl_V41_17 :
    seen (runWord (startAt VmConfig.default 0x00000100#32 [(1#5, 0x80000000#32), (2#5, 0x0000001F#32)] []) 0x0020D1B3#32)
      [3#5] [] =
    some ⟨[0x00000001#32], [], 0x00000104#32, 1#64, none⟩ := by decide

/-- V41-18: sra x3, x1, x2. -/
theorem test_sra_V41_18 :
    seen (runWord (startAt VmConfig.default 0x00000100#32 [(1#5, 0x80000000#32), (2#5, 0x0000001F#32)] []) 0x4020D1B3#32)
      [3#5] [] =
    some ⟨[0xFFFFFFFF#32], [], 0x00000104#32, 1#64, none⟩ := by decide

/-- V41-20: sra x3, x1, x2 (shift amount 32 uses 0). -/
theorem test_sra_V41_20 :
    seen (runWord (startAt VmConfig.default 0x00000100#32 [(1#5, 0x80000000#32), (2#5, 0x00000020#32)] []) 0x4020D1B3#32)
      [3#5] [] =
    some ⟨[0x80000000#32], [], 0x00000104#32, 1#64, none⟩ := by decide

/-- V41-21: or x3, x1, x0. -/
theorem test_or_V41_21 :
    seen (runWord (startAt VmConfig.default 0x00000100#32 [(1#5, 0x00001234#32)] []) 0x0000E1B3#32)
      [3#5] [] =
    some ⟨[0x00001234#32], [], 0x00000104#32, 1#64, none⟩ := by decide

/-- V41-22: and x3, x1, x2. -/
theorem test_and_V41_22 :
    seen (runWord (startAt VmConfig.default 0x00000100#32 [(1#5, 0xF0F0F0F0#32), (2#5, 0x0FF00FF0#32)] []) 0x0020F1B3#32)
      [3#5] [] =
    some ⟨[0x00F000F0#32], [], 0x00000104#32, 1#64, none⟩ := by decide

/-- V42-2: addi x5, x6, 2047. -/
theorem test_addi_V42_2 :
    seen (runWord (startAt VmConfig.default 0x00000100#32 [(6#5, 0x7FFFF800#32)] []) 0x7FF30293#32)
      [5#5] [] =
    some ⟨[0x7FFFFFFF#32], [], 0x00000104#32, 1#64, none⟩ := by decide

/-- V42-3: addi x5, x6, -2048. -/
theorem test_addi_V42_3 :
    seen (runWord (startAt VmConfig.default 0x00000100#32 [(6#5, 0x00000000#32)] []) 0x80030293#32)
      [5#5] [] =
    some ⟨[0xFFFFF800#32], [], 0x00000104#32, 1#64, none⟩ := by decide

/-- V42-6: slti x5, x6, 0. -/
theorem test_slti_V42_6 :
    seen (runWord (startAt VmConfig.default 0x00000100#32 [(6#5, 0xFFFFFFFF#32)] []) 0x00032293#32)
      [5#5] [] =
    some ⟨[0x00000001#32], [], 0x00000104#32, 1#64, none⟩ := by decide

/-- V42-7: slti x5, x6, -2048. -/
theorem test_slti_V42_7 :
    seen (runWord (startAt VmConfig.default 0x00000100#32 [(6#5, 0x00000005#32)] []) 0x80032293#32)
      [5#5] [] =
    some ⟨[0x00000000#32], [], 0x00000104#32, 1#64, none⟩ := by decide

/-- V42-8: sltiu x5, x6, -1 (compares with 0xFFFFFFFF). -/
theorem test_sltiu_V42_8 :
    seen (runWord (startAt VmConfig.default 0x00000100#32 [(6#5, 0xFFFFFFFE#32)] []) 0xFFF33293#32)
      [5#5] [] =
    some ⟨[0x00000001#32], [], 0x00000104#32, 1#64, none⟩ := by decide

/-- V42-10: sltiu x5, x6, 1 (seqz). -/
theorem test_sltiu_V42_10 :
    seen (runWord (startAt VmConfig.default 0x00000100#32 [(6#5, 0x00000003#32)] []) 0x00133293#32)
      [5#5] [] =
    some ⟨[0x00000000#32], [], 0x00000104#32, 1#64, none⟩ := by decide

/-- V42-11: xori x5, x6, -1 (not). -/
theorem test_xori_V42_11 :
    seen (runWord (startAt VmConfig.default 0x00000100#32 [(6#5, 0x00000000#32)] []) 0xFFF34293#32)
      [5#5] [] =
    some ⟨[0xFFFFFFFF#32], [], 0x00000104#32, 1#64, none⟩ := by decide

/-- V42-12: ori x5, x6, -2048. -/
theorem test_ori_V42_12 :
    seen (runWord (startAt VmConfig.default 0x00000100#32 [(6#5, 0x00000012#32)] []) 0x80036293#32)
      [5#5] [] =
    some ⟨[0xFFFFF812#32], [], 0x00000104#32, 1#64, none⟩ := by decide

/-- V42-13: andi x5, x6, -16. -/
theorem test_andi_V42_13 :
    seen (runWord (startAt VmConfig.default 0x00000100#32 [(6#5, 0x12345678#32)] []) 0xFF037293#32)
      [5#5] [] =
    some ⟨[0x12345670#32], [], 0x00000104#32, 1#64, none⟩ := by decide

/-- V42-15: slli x5, x6, 31. -/
theorem test_slli_V42_15 :
    seen (runWord (startAt VmConfig.default 0x00000100#32 [(6#5, 0x00000003#32)] []) 0x01F31293#32)
      [5#5] [] =
    some ⟨[0x80000000#32], [], 0x00000104#32, 1#64, none⟩ := by decide

/-- V42-16: slli x5, x6, 0. -/
theorem test_slli_V42_16 :
    seen (runWord (startAt VmConfig.default 0x00000100#32 [(6#5, 0x0000ABCD#32)] []) 0x00031293#32)
      [5#5] [] =
    some ⟨[0x0000ABCD#32], [], 0x00000104#32, 1#64, none⟩ := by decide

/-- V42-17: srli x5, x6, 31. -/
theorem test_srli_V42_17 :
    seen (runWord (startAt VmConfig.default 0x00000100#32 [(6#5, 0x80000000#32)] []) 0x01F35293#32)
      [5#5] [] =
    some ⟨[0x00000001#32], [], 0x00000104#32, 1#64, none⟩ := by decide

/-- V42-18: srai x5, x6, 1. -/
theorem test_srai_V42_18 :
    seen (runWord (startAt VmConfig.default 0x00000100#32 [(6#5, 0x80000001#32)] []) 0x40135293#32)
      [5#5] [] =
    some ⟨[0xC0000000#32], [], 0x00000104#32, 1#64, none⟩ := by decide

/-- V42-20: srai x5, x6, 0. -/
theorem test_srai_V42_20 :
    seen (runWord (startAt VmConfig.default 0x00000100#32 [(6#5, 0x80000000#32)] []) 0x40035293#32)
      [5#5] [] =
    some ⟨[0x80000000#32], [], 0x00000104#32, 1#64, none⟩ := by decide

/-- V43-1: lb x5, 0(x2). -/
theorem test_lb_V43_1 :
    seen (runWord (startAt VmConfig.default 0x00000100#32 [(2#5, 0x00000200#32)] [(0x200, 0x80#8), (0x201, 0xFF#8), (0x202, 0x34#8), (0x203, 0x12#8)]) 0x00010283#32)
      [5#5] [] =
    some ⟨[0xFFFFFF80#32], [], 0x00000104#32, 1#64, none⟩ := by decide

/-- V43-5: lh x5, 1(x2) (odd address, no alignment check). -/
theorem test_lh_V43_5 :
    seen (runWord (startAt VmConfig.default 0x00000100#32 [(2#5, 0x00000200#32)] [(0x200, 0x80#8), (0x201, 0xFF#8), (0x202, 0x34#8), (0x203, 0x12#8)]) 0x00111283#32)
      [5#5] [] =
    some ⟨[0x000034FF#32], [], 0x00000104#32, 1#64, none⟩ := by decide

/-- V43-14: lh x5, 0(x2) (last halfword). -/
theorem test_lh_V43_14 :
    seen (runWord (startAt { VmConfig.default with memSize := 0x1000 } 0x00000100#32 [(2#5, 0x00000FFE#32)] []) 0x00011283#32)
      [5#5] [] =
    some ⟨[0x00000000#32], [], 0x00000104#32, 1#64, none⟩ := by decide

/-- V43-9: lw x5, -2(x2) (address 0x1FE, misaligned). -/
theorem test_lw_V43_9 :
    seen (runWord (startAt VmConfig.default 0x00000100#32 [(2#5, 0x00000200#32)] [(0x200, 0x80#8), (0x201, 0xFF#8), (0x202, 0x34#8), (0x203, 0x12#8)]) 0xFFE12283#32)
      [5#5] [] =
    some ⟨[0xFF800000#32], [], 0x00000104#32, 1#64, none⟩ := by decide

/-- V43-13: lw x5, 0(x2). -/
theorem test_lw_V43_13 :
    faultOf (runWord (startAt { VmConfig.default with memSize := 0x1000 } 0x00000100#32 [(2#5, 0x00000FFE#32)] []) 0x00012283#32) = some (.memoryViolation 0x00000FFE#32) := by decide

/-- V43-3: lbu x5, 1(x2). -/
theorem test_lbu_V43_3 :
    seen (runWord (startAt VmConfig.default 0x00000100#32 [(2#5, 0x00000200#32)] [(0x200, 0x80#8), (0x201, 0xFF#8), (0x202, 0x34#8), (0x203, 0x12#8)]) 0x00114283#32)
      [5#5] [] =
    some ⟨[0x000000FF#32], [], 0x00000104#32, 1#64, none⟩ := by decide

/-- V43-15: lbu x5, 0(x2) (one past the end). -/
theorem test_lbu_V43_15 :
    faultOf (runWord (startAt { VmConfig.default with memSize := 0x1000 } 0x00000100#32 [(2#5, 0x00001000#32)] []) 0x00014283#32) = some (.memoryViolation 0x00001000#32) := by decide

/-- V43-7: lhu x5, 0(x2). -/
theorem test_lhu_V43_7 :
    seen (runWord (startAt VmConfig.default 0x00000100#32 [(2#5, 0x00000200#32)] [(0x200, 0x80#8), (0x201, 0xFF#8), (0x202, 0x34#8), (0x203, 0x12#8)]) 0x00015283#32)
      [5#5] [] =
    some ⟨[0x0000FF80#32], [], 0x00000104#32, 1#64, none⟩ := by decide

/-- V44-1: sb x5, 0(x2). -/
theorem test_sb_V44_1 :
    seen (runWord (startAt VmConfig.default 0x00000100#32 [(2#5, 0x00000200#32), (5#5, 0xAABBCCDD#32)] []) 0x00510023#32)
      [] [0x200] =
    some ⟨[], [0xDD#8], 0x00000104#32, 1#64, none⟩ := by decide

/-- V44-8: sb x5, -1(x2) (address wraps to 0xFFFFFFFF). -/
theorem test_sb_V44_8 :
    faultOf (runWord (startAt VmConfig.default 0x00000100#32 [(2#5, 0x00000000#32), (5#5, 0x00000001#32)] []) 0xFE510FA3#32) = some (.memoryViolation 0xFFFFFFFF#32) := by decide

/-- V44-2: sh x5, 1(x2) (odd address). -/
theorem test_sh_V44_2 :
    seen (runWord (startAt VmConfig.default 0x00000100#32 [(2#5, 0x00000200#32), (5#5, 0xAABBCCDD#32)] []) 0x005110A3#32)
      [] [0x201, 0x202] =
    some ⟨[], [0xDD#8, 0xCC#8], 0x00000104#32, 1#64, none⟩ := by decide

/-- V44-7: sh x5, 0(x2) (last halfword). -/
theorem test_sh_V44_7 :
    seen (runWord (startAt { VmConfig.default with memSize := 0x1000 } 0x00000100#32 [(2#5, 0x00000FFE#32), (5#5, 0x0000BEEF#32)] []) 0x00511023#32)
      [] [0xFFE, 0xFFF] =
    some ⟨[], [0xEF#8, 0xBE#8], 0x00000104#32, 1#64, none⟩ := by decide

/-- V44-4: sw x5, 3(x2) (misaligned). -/
theorem test_sw_V44_4 :
    seen (runWord (startAt VmConfig.default 0x00000100#32 [(2#5, 0x00000200#32), (5#5, 0x11223344#32)] []) 0x005121A3#32)
      [] [0x203, 0x204, 0x205, 0x206] =
    some ⟨[], [0x44#8, 0x33#8, 0x22#8, 0x11#8], 0x00000104#32, 1#64, none⟩ := by decide

/-- V44-6: sw x5, 0(x2) (straddles the end). -/
theorem test_sw_V44_6 :
    faultOf (runWord (startAt { VmConfig.default with memSize := 0x1000 } 0x00000100#32 [(2#5, 0x00000FFD#32), (5#5, 0xFFFFFFFF#32)] [(0xFFC, 0x01#8), (0xFFD, 0x02#8), (0xFFE, 0x03#8), (0xFFF, 0x04#8)]) 0x00512023#32) = some (.memoryViolation 0x00000FFD#32) := by decide

/-- V45-1: beq x1, x2, -8 (equal: taken). -/
theorem test_beq_V45_1 :
    seen (runWord (startAt VmConfig.default 0x00000100#32 [(1#5, 0x00000005#32), (2#5, 0x00000005#32)] []) 0xFE208CE3#32)
      [] [] =
    some ⟨[], [], 0x000000F8#32, 1#64, none⟩ := by decide

/-- V45-4: beq x0, x0, -8 (target wraps below 0). -/
theorem test_beq_V45_4 :
    seen (runWord (startAt VmConfig.default 0x00000004#32 [] []) 0xFE000CE3#32)
      [] [] =
    some ⟨[], [], 0xFFFFFFFC#32, 1#64, none⟩ := by decide

/-- V45-5: bne x1, x2, 4094 (largest offset). -/
theorem test_bne_V45_5 :
    seen (runWord (startAt VmConfig.default 0x00000100#32 [(1#5, 0x00000001#32), (2#5, 0x00000002#32)] []) 0x7E209FE3#32)
      [] [] =
    some ⟨[], [], 0x000010FE#32, 1#64, none⟩ := by decide

/-- V45-6: bne x1, x1, 16. -/
theorem test_bne_V45_6 :
    seen (runWord (startAt VmConfig.default 0x00000100#32 [(1#5, 0x00000001#32)] []) 0x00109863#32)
      [] [] =
    some ⟨[], [], 0x00000104#32, 1#64, none⟩ := by decide

/-- V45-7: blt x1, x2, -4096 (smallest offset). -/
theorem test_blt_V45_7 :
    seen (runWord (startAt VmConfig.default 0x00002000#32 [(1#5, 0xFFFFFFFF#32), (2#5, 0x00000001#32)] []) 0x8020C063#32)
      [] [] =
    some ⟨[], [], 0x00001000#32, 1#64, none⟩ := by decide

/-- V45-8: blt x1, x2, 8. -/
theorem test_blt_V45_8 :
    seen (runWord (startAt VmConfig.default 0x00000100#32 [(1#5, 0x00000001#32), (2#5, 0xFFFFFFFF#32)] []) 0x0020C463#32)
      [] [] =
    some ⟨[], [], 0x00000104#32, 1#64, none⟩ := by decide

/-- V45-9: bge x1, x2, 8 (equal: taken). -/
theorem test_bge_V45_9 :
    seen (runWord (startAt VmConfig.default 0x00000100#32 [(1#5, 0x00000007#32), (2#5, 0x00000007#32)] []) 0x0020D463#32)
      [] [] =
    some ⟨[], [], 0x00000108#32, 1#64, none⟩ := by decide

/-- V45-10: bge x0, x1, 8. -/
theorem test_bge_V45_10 :
    seen (runWord (startAt VmConfig.default 0x00000100#32 [(1#5, 0xFFFFFFFF#32)] []) 0x00105463#32)
      [] [] =
    some ⟨[], [], 0x00000108#32, 1#64, none⟩ := by decide

/-- V45-11: bltu x1, x2, 8. -/
theorem test_bltu_V45_11 :
    seen (runWord (startAt VmConfig.default 0x00000100#32 [(1#5, 0xFFFFFFFF#32), (2#5, 0x00000001#32)] []) 0x0020E463#32)
      [] [] =
    some ⟨[], [], 0x00000104#32, 1#64, none⟩ := by decide

/-- V45-12: bltu x1, x2, 8. -/
theorem test_bltu_V45_12 :
    seen (runWord (startAt VmConfig.default 0x00000100#32 [(1#5, 0x00000001#32), (2#5, 0xFFFFFFFF#32)] []) 0x0020E463#32)
      [] [] =
    some ⟨[], [], 0x00000108#32, 1#64, none⟩ := by decide

/-- V45-13: bgeu x1, x2, 8. -/
theorem test_bgeu_V45_13 :
    seen (runWord (startAt VmConfig.default 0x00000100#32 [(1#5, 0xFFFFFFFF#32), (2#5, 0x00000001#32)] []) 0x0020F463#32)
      [] [] =
    some ⟨[], [], 0x00000108#32, 1#64, none⟩ := by decide

/-- V45-14: bgeu x0, x1, 8. -/
theorem test_bgeu_V45_14 :
    seen (runWord (startAt VmConfig.default 0x00000100#32 [(1#5, 0x00000001#32)] []) 0x00107463#32)
      [] [] =
    some ⟨[], [], 0x00000104#32, 1#64, none⟩ := by decide

/-- V46-1: jal x1, 2048. -/
theorem test_jal_V46_1 :
    seen (runWord (startAt VmConfig.default 0x00000100#32 [] []) 0x001000EF#32)
      [1#5] [] =
    some ⟨[0x00000104#32], [], 0x00000900#32, 1#64, none⟩ := by decide

/-- V46-4: jal x1, -1048576 (smallest offset). -/
theorem test_jal_V46_4 :
    seen (runWord (startAt VmConfig.default 0x00100000#32 [] []) 0x800000EF#32)
      [1#5] [] =
    some ⟨[0x00100004#32], [], 0x00000000#32, 1#64, none⟩ := by decide

/-- V46-9: jalr x5, 0(x5), rd = rs1. -/
theorem test_jalr_V46_9 :
    seen (runWord (startAt VmConfig.default 0x00000100#32 [(5#5, 0x00000300#32)] []) 0x000282E7#32)
      [5#5] [] =
    some ⟨[0x00000104#32], [], 0x00000300#32, 1#64, none⟩ := by decide

/-- V46-10: jalr x5, 0(x5), rd = rs1. -/
theorem test_jalr_V46_10 :
    seen (runWord (startAt { VmConfig.default with jalrLinkBeforeRead := true } 0x00000100#32 [(5#5, 0x00000300#32)] []) 0x000282E7#32)
      [5#5] [] =
    some ⟨[0x00000104#32], [], 0x00000104#32, 1#64, none⟩ := by decide

/-- V47-2: lui x5, 0xFFFFF. -/
theorem test_lui_V47_2 :
    seen (runWord (startAt VmConfig.default 0x00000100#32 [] []) 0xFFFFF2B7#32)
      [5#5] [] =
    some ⟨[0xFFFFF000#32], [], 0x00000104#32, 1#64, none⟩ := by decide

/-- V47-5: auipc x3, 0xFFFFF (wraps). -/
theorem test_auipc_V47_5 :
    seen (runWord (startAt VmConfig.default 0x00000100#32 [] []) 0xFFFFF197#32)
      [3#5] [] =
    some ⟨[0xFFFFF100#32], [], 0x00000104#32, 1#64, none⟩ := by decide

/-- V48-1: ecall: exit 7. -/
theorem test_ecall_V48_1 :
    seen (runWord (startAt VmConfig.default 0x00000100#32 [(17#5, 0x0000005D#32), (10#5, 0x00000007#32)] []) 0x00000073#32)
      [] [] =
    some ⟨[], [], 0x00000104#32, 1#64, some 0x00000007#32⟩ := by decide

/-- V48-12: ecall: write, bad fd and bad buffer. -/
theorem test_ecall_V48_12 :
    faultOf (runWord (startAt VmConfig.default 0x00000100#32 [(17#5, 0x00000040#32), (10#5, 0x00000007#32), (11#5, 0x003FFFFE#32), (12#5, 0x00000004#32)] []) 0x00000073#32) = some (.syscallError (.badFd 7#32)) := by decide

/-- V48-14: ebreak. -/
theorem test_ebreak_V48_14 :
    faultOf (runWord (startAt VmConfig.default 0x00000100#32 [] []) 0x00100073#32) = some (.executionError .breakpoint) := by decide

/-! ### The syscall handler's success and its two host answers (V48-3, V60-20), and the host's operations (V60) -/

/-- V48-3, V60-20: a write of the bytes 80 FF 34 12 at 0x200 to stream 1, with the host's next answer given. -/
def writeState (count : Word) (answers : List HostAnswer) : State :=
  { startAt VmConfig.default 0x100#32 [(17#5, 64#32), (10#5, 1#32), (11#5, 0x200#32), (12#5, count)]
      [(0x200, 0x80#8), (0x201, 0xFF#8), (0x202, 0x34#8), (0x203, 0x12#8)] with hostAnswers := answers }

theorem test_write_V48_3 :
    seen (runWord (writeState 4#32 [.ok]) 0x00000073#32) [10#5] [] = some ⟨[4#32], [], 0x104#32, 1#64, none⟩ := by decide

theorem test_write_V48_3_stream :
    (hostStep ((writeState 4#32 [.ok]).withFetchWord 32 0x73)).2.stdout = [0x80#8, 0xFF#8, 0x34#8, 0x12#8] := by decide

theorem test_write_V60_20 :
    (hostStep ((writeState 3#32 [.failed 2]).withFetchWord 32 0x73)).1 =
      .error (.syscallError (.hostIo 1#32 [0x80#8, 0xFF#8])) ∧
    (hostStep ((writeState 3#32 [.failed 2]).withFetchWord 32 0x73)).2.stdout = [0x80#8, 0xFF#8] := by decide

/-- A state in memory of 0x1000 bytes with a budget of ten, at PC 0x100 with the word of `w` there. -/
def budgetState (cycle : CycleCount) (w : Nat) (regs : List (RegIdx × Word)) : State :=
  { (startAt { VmConfig.default with memSize := 0x1000, maxCycles := 10#64 } 0x100#32 regs []).withFetchWord 32 w with
    cycle := cycle }

theorem test_execute_V60_6 :
    (execute { budgetState 10#64 0 [] with pc := 0x400000#32 }).1 = .error (.executionError .cycleLimit) := by decide

theorem test_execute_V60_7 :
    (execute (budgetState 9#64 0x00000073 [(17#5, 93#32), (10#5, 5#32)])).1 = .ok 5#32 := by decide

theorem test_execute_V60_8 :
    (execute (budgetState 9#64 0x00108093 [])).1 = .error (.executionError .cycleLimit) ∧
    readReg (execute (budgetState 9#64 0x00108093 [])).2 1#5 = 1#32 := by decide

theorem test_step_V60_3 : faultOf (step (setPc State.reset 0xFFFFFFFC#32)) = some (.memoryViolation 0xFFFFFFFC#32) := by decide

theorem test_step_V60_5 : faultOf (step State.reset) = some (.invalidInstruction 0#32) := by decide

theorem test_step_V60_17 :
    faultOf (step (construct { VmConfig.default with memSize := 0 })) = some (.memoryViolation 0#32) := by decide

/-- What `load_binary` or `set_register` leaves at some addresses and registers, or its error. -/
def afterHost (r : Except Fault State) (regs : List RegIdx) (addrs : List Nat) : Sum Fault (List Word × List Byte) :=
  match r with
  | .ok t => .inr (regs.map (readReg t), addrs.map t.mem.read)
  | .error e => .inl e

theorem test_loadBinary_V60_13 :
    afterHost (loadBinary State.reset 0x003FFFFE#32 [1#8, 2#8, 3#8, 4#8]) [] [] = .inl (.memoryViolation 0x003FFFFE#32) := by decide

theorem test_loadBinary_V60_14 :
    afterHost (loadBinary State.reset 0x003FFFFC#32 [1#8, 2#8, 3#8, 4#8]) [] [0x3FFFFC, 0x3FFFFF] =
      .inr ([], [1#8, 4#8]) := by decide

theorem test_setRegister_V60_10 : afterHost (setRegister State.reset 32 5#32) [] [] = .inl (.invalidRegister 32) := by decide

theorem test_setRegister_V60_11_12 :
    (afterHost (setRegister State.reset 0 7#32) [0#5] [] = .inr ([0#32], [])) ∧
    (afterHost (setRegister State.reset 31 0xDEADBEEF#32) [31#5] [] = .inr ([0xDEADBEEF#32], [])) := by decide

theorem test_resetVm_V60_16 :
    (resetVm (budgetState 9#64 0x00108093 [(5#5, 3#32)])).mem = [] ∧
    readReg (resetVm (budgetState 9#64 0x00108093 [(5#5, 3#32)])) 5#5 = 0#32 ∧
    (resetVm (budgetState 9#64 0x00108093 [(5#5, 3#32)])).cfg.maxCycles = 10#64 := by decide

theorem test_executeWithProof_V60_18 : (executeWithProof State.reset).1 = .error .proofError := by decide

/-! ### Memory keeps one form: a zero is never listed, equal memories are equal data -/

theorem test_memory_write_zero_unlists : Memory.write [(5, 1#8), (9, 2#8)] 5 0#8 = [(9, 2#8)] := by decide
theorem test_memory_write_sorted : Memory.write [(5, 1#8), (9, 2#8)] 7 3#8 = [(5, 1#8), (7, 3#8), (9, 2#8)] := by decide
theorem test_memory_wf_refuses :
    (Memory.wf [(5, 1#8), (5, 2#8)] || Memory.wf [(9, 1#8), (5, 2#8)] || Memory.wf [(5, 0#8)]) = false := by decide

/-! ### Witnesses: a concrete state and operands that meet every hypothesis of a statement, clause by clause -/

/-- Memory of 0x1000 bytes, PC 0x100, x2 as given. -/
def smallState (x2 : Word) : State :=
  startAt { VmConfig.default with memSize := 0x1000 } 0x100#32 [(2#5, x2), (5#5, 0x11223344#32)] []

theorem smallState_inv : (smallState 0x200#32).Inv := ⟨by decide, by decide, by decide⟩

theorem witness_DecodeOfEncode : Instr.wf (.beq 1#5 2#5 (-4096#32)) = true ∧ Instr.wf (.jal 1#5 1048574#32) = true := by decide

theorem witness_DecodedWordIsItsEncoding : decode 0x8020C063#32 = .ok (.blt 1#5 2#5 (-4096#32)) := rfl

theorem witness_DecodeAcceptsExactlyTheTable :
    (∃ row ∈ tableRows, 0x00000013#32 &&& row.1 = row.2) ∧ ¬ ∃ row ∈ tableRows, 0x02208033#32 &&& row.1 = row.2 := by
  decide

theorem witness_OtherOpcodesInvalid :
    (0x0000000F#32 : Word).toNat % 128 ∉ [0x33, 0x13, 0x03, 0x23, 0x63, 0x6F, 0x67, 0x37, 0x17, 0x73] := by decide

theorem witness_SystemWordsExact :
    (0x30200073#32 : Word).toNat % 128 = 0x73 ∧ 0x30200073#32 ≠ 0x00000073#32 ∧ 0x30200073#32 ≠ 0x00100073#32 := by decide

/-- Each `Encodes` clause has a word: the row's match itself. -/
theorem witness_Encodes : tableRows.all (fun row => row.2 &&& row.1 = row.2) = true := by decide

/-- The last address in bounds and the first out of bounds, for the three widths of loads and stores. -/
theorem witness_LoadEffect_StoreEffect :
    [1, 2, 4].all (fun n => decide ((effectiveAddress (smallState (BitVec.ofNat 32 (0x1000 - n))) 2#5 0#32).toNat + n ≤
        (smallState 0#32).cfg.memSize) &&
      !decide ((effectiveAddress (smallState (BitVec.ofNat 32 (0x1001 - n))) 2#5 0#32).toNat + n ≤
        (smallState 0#32).cfg.memSize)) = true ∧
    (smallState 0xFFC#32).mem.wf = true := by decide

theorem witness_AccessesAreLittleEndian :
    4 ≤ 4 ∧ (0xFFC#32 : Word).toNat + 4 ≤ (smallState 0#32).cfg.memSize ∧ (smallState 0#32).mem.wf = true := by decide

theorem witness_BoundsCheckIsExact :
    (0x1000#32 : Word).toNat + 0 ≤ (smallState 0#32).cfg.memSize ∧
    ¬ (0xFFFFFFFF#32 : Word).toNat + 4 ≤ (smallState 0#32).cfg.memSize := by decide

theorem witness_StoreThenLoad :
    (smallState 0x200#32).mem.wf = true ∧
    (∃ t, exec (.sb 2#5 5#5 1#32) (smallState 0x200#32) = .next t ∧
      readReg t 2#5 + 1#32 = readReg (smallState 0x200#32) 2#5 + 1#32) ∧
    (∃ t, exec (.sh 2#5 5#5 1#32) (smallState 0x200#32) = .next t ∧
      readReg t 2#5 + 1#32 = readReg (smallState 0x200#32) 2#5 + 1#32) ∧
    ∃ t, exec (.sw 2#5 5#5 1#32) (smallState 0x200#32) = .next t ∧
      readReg t 2#5 + 1#32 = readReg (smallState 0x200#32) 2#5 + 1#32 :=
  ⟨by decide, ⟨_, rfl, by decide⟩, ⟨_, rfl, by decide⟩, ⟨_, rfl, by decide⟩⟩

theorem witness_StoreSeenByNextFetch :
    (smallState 0x104#32).mem.wf = true ∧ (∃ t, exec (.sw 2#5 5#5 0#32) (smallState 0x104#32) = .next t) ∧
    (smallState 0x104#32).pc + 4#32 = effectiveAddress (smallState 0x104#32) 2#5 0#32 :=
  ⟨by decide, ⟨_, rfl⟩, by decide⟩

/-- jalr with rd = rs1 under each value of the parameter: the two bases differ. -/
theorem witness_JalrEffect :
    (∃ s : State, s.cfg.jalrLinkBeforeRead = true ∧ s.pc + 4#32 ≠ readReg s 5#5) ∧
    ∃ s : State, s.cfg.jalrLinkBeforeRead = false ∧ s.pc + 4#32 ≠ readReg s 5#5 :=
  ⟨⟨startAt { VmConfig.default with jalrLinkBeforeRead := true } 0x100#32 [(5#5, 0x300#32)] [], by decide, by decide⟩,
   ⟨startAt VmConfig.default 0x100#32 [(5#5, 0x300#32)] [], by decide, by decide⟩⟩

theorem witness_EcallExit : readReg (budgetState 9#64 0x73 [(17#5, 93#32), (10#5, 5#32)]) 17#5 = 93#32 := by decide

/-- One state per case of the write syscall: a bad descriptor, the buffer one byte too long, a failed and a good answer,
and no byte at the very end of memory. -/
theorem witness_EcallWrite :
    readReg (writeState 4#32 [.ok]) 17#5 = 64#32 ∧ hostAnswer (writeState 4#32 [.ok]) = .ok ∧
    hostAnswer (writeState 4#32 [.failed 2]) = .failed 2 ∧ readReg (writeReg (writeState 4#32 []) 10#5 3#32) 10#5 = 3#32 ∧
    (writeState 0x3FFE01#32 []).cfg.memSize <
      (readReg (writeState 0x3FFE01#32 []) 11#5).toNat + (readReg (writeState 0x3FFE01#32 []) 12#5).toNat ∧
    ¬ (writeState 0x3FFE00#32 []).cfg.memSize <
      (readReg (writeState 0x3FFE00#32 []) 11#5).toNat + (readReg (writeState 0x3FFE00#32 []) 12#5).toNat := by decide

theorem witness_EcallRead :
    readReg (startAt VmConfig.default 0#32 [(17#5, 63#32)] []) 17#5 = 63#32 ∧
    readReg (startAt VmConfig.default 0#32 [(17#5, 63#32)] []) 10#5 = 0#32 ∧
    readReg (startAt VmConfig.default 0#32 [(17#5, 63#32), (10#5, 1#32)] []) 10#5 ≠ 0#32 := by decide

theorem witness_EcallUnknownNumber :
    readReg (startAt VmConfig.default 0#32 [(17#5, 0x1000005D#32)] []) 17#5 ≠ 93#32 ∧
    readReg (startAt VmConfig.default 0#32 [(17#5, 0x1000005D#32)] []) 17#5 ≠ 64#32 ∧
    readReg (startAt VmConfig.default 0#32 [(17#5, 0x1000005D#32)] []) 17#5 ≠ 63#32 := by decide

theorem witness_StepRunsTheDecodedInstruction :
    (fetch (budgetState 0#64 0x00108093 []) = .ok 0x00108093#32 ∧ decode 0x00108093#32 = .ok (.addi 1#5 1#5 1#32)) ∧
    (fetch State.reset = .ok 0#32 ∧ decode 0#32 = .error (.invalidInstruction 0#32)) ∧
    fetch (setPc State.reset 0x3FFFFE#32) = .error (.memoryViolation 0x3FFFFE#32) := ⟨⟨rfl, rfl⟩, ⟨rfl, rfl⟩, rfl⟩

theorem witness_FetchReadsTheWordAtPc :
    (setPc State.reset 0x3FFFFC#32).pc.toNat + 4 ≤ State.reset.cfg.memSize ∧
    ¬ (setPc State.reset 0x3FFFFD#32).pc.toNat + 4 ≤ State.reset.cfg.memSize := by decide

/-- Instructions that complete, of each kind of control flow and of each kind of effect: the premise of
CompletedInstructionRetires, HaltOnlyByExit, OnlyTheDestinationIsWritten and
OnlyStoresWriteMemoryOnlyEcallWritesStreams. -/
theorem witness_completed_instructions :
    (∃ t, exec (.beq 0#5 0#5 8#32) State.reset = .next t) ∧ (∃ t, exec (.jalr 5#5 5#5 0#32) State.reset = .next t) ∧
    (∃ t, exec (.sb 0#5 0#5 0#32) State.reset = .next t) ∧
    ∃ t, exec .ecall (budgetState 9#64 0x73 [(17#5, 93#32)]) = .next t ∧
      readReg (budgetState 9#64 0x73 [(17#5, 93#32)]) 17#5 = 93#32 :=
  ⟨⟨_, rfl⟩, ⟨_, rfl⟩, ⟨_, rfl⟩, ⟨_, rfl, by decide⟩⟩

theorem witness_StepOutcomesAreTheSpecs :
    completes (budgetState 0#64 0x00108093 []) ∧ ∃ e, step State.reset = .fault e ∧ stepFault e = true :=
  ⟨⟨_, rfl⟩, ⟨_, rfl, rfl⟩⟩

theorem witness_FailingStepChangesNothing :
    (∃ t e, hostStep State.reset = (.error e, t) ∧ ∀ fd bs, e ≠ .syscallError (.hostIo fd bs)) ∧
    ∃ t e, executeInstruction .ecall (writeState 3#32 [.failed 2]) = (.error e, t) :=
  ⟨⟨_, .invalidInstruction 0#32, rfl, by simp⟩, ⟨_, _, rfl⟩⟩

/-- A state that meets the invariant, has an even PC and completes a step: the premises of StepKeepsInvariant,
PcStaysEven and ConfigurationIsFixed. -/
theorem witness_StepKeepsInvariant_PcStaysEven :
    (budgetState 0#64 0x00108093 []).Inv ∧ (budgetState 0#64 0x00108093 []).pc.toNat % 2 = 0 ∧
    ∃ t, step (budgetState 0#64 0x00108093 []) = .next t :=
  ⟨⟨by decide, by decide, by decide⟩, by decide, ⟨_, rfl⟩⟩

/-- A word that decodes and stands at PC, and a record with an odd offset, which no word decodes to: R149. -/
theorem witness_ExecuteInstructionRunsDecodedInstructions :
    (decode 0x00108093#32 = .ok (.addi 1#5 1#5 1#32) ∧ fetch (budgetState 0#64 0x00108093 []) = .ok 0x00108093#32) ∧
    ∀ w, decode w ≠ .ok (.jal 0#5 1#32) := by
  refine ⟨⟨rfl, rfl⟩, fun w => ?_⟩
  have odd : immJOf w ≠ 1#32 := fun h => absurd (h ▸ fitsJump_immJOf w) (by decide)
  have branches : ∀ (p : Prop) [Decidable p] (x y : Except DecodeError Instr), x ≠ .ok (.jal 0#5 1#32) →
      y ≠ .ok (.jal 0#5 1#32) → (if p then x else y) ≠ .ok (.jal 0#5 1#32) := by
    intro p _ x y hx hy
    split <;> assumption
  unfold decode decodeOp decodeOpImm decodeLoad decodeStore decodeBranch decodeJalr decodeSystem
  repeat' apply branches
  all_goals simp [odd]

/-- The jal with an odd offset is refused, and PC stays as it was. -/
theorem test_executeInstruction_odd_offset :
    executeInstruction (.jal 0#5 1#32) State.reset = (.refused .notDecoded, State.reset) ∧
    (executeInstruction (.jal 0#5 2#32) State.reset).2.pc = 2#32 := by decide

theorem witness_ResetMeetsInvariant : VmConfig.valid { VmConfig.default with memSize := 2 ^ 32 } := by decide

theorem witness_ConfigurationIsFixed :
    (∃ t, loadBinary State.reset 0#32 [1#8] = .ok t) ∧ (∃ t, setRegister State.reset 31 1#32 = .ok t) ∧
    ∃ t, loadProgram State.reset [(0#32, [1#8])] 4#32 = .ok t :=
  ⟨⟨_, rfl⟩, ⟨_, rfl⟩, ⟨_, rfl⟩⟩

/-- A memory of three bytes and one of four: the two cases of ResetValues. -/
theorem witness_ResetValues :
    ¬ 4 ≤ (construct { VmConfig.default with memSize := 3 }).cfg.memSize ∧
    4 ≤ (construct { VmConfig.default with memSize := 4 }).cfg.memSize := by decide

/-- Two states that differ in CYCLE and a stream only, one pair that completes and one that fails. -/
theorem witness_CycleAndStreamsAreNotRead :
    AgreeOnInputs (budgetState 0#64 0x00108093 []) { budgetState 7#64 0x00108093 [] with stdout := [1#8] } ∧
    (∃ t, step (budgetState 0#64 0x00108093 []) = .next t) ∧
    AgreeOnInputs State.reset { State.reset with cycle := 7#64 } ∧ ∃ e, step State.reset = .fault e :=
  ⟨⟨fun _ => rfl, rfl, rfl, rfl, rfl, rfl⟩, ⟨_, rfl⟩, ⟨fun _ => rfl, rfl, rfl, rfl, rfl, rfl⟩, ⟨_, rfl⟩⟩

theorem witness_LoadBinaryPlacesBytes :
    (0x003FFFFC#32 : Word).toNat + [1#8, 2#8, 3#8, 4#8].length ≤ State.reset.cfg.memSize ∧
    ¬ (0x003FFFFD#32 : Word).toNat + [1#8, 2#8, 3#8, 4#8].length ≤ State.reset.cfg.memSize ∧
    State.reset.mem.wf = true ∧ [1#8, 2#8, 3#8, 4#8][3]? = some 4#8 := by decide

theorem witness_LoadProgramFollowsTheLoaderContract :
    ∃ t, loadProgram State.reset [(0x1000#32, [0x73#8]), (0x1000#32, [0x13#8])] 0x1000#32 = .ok t := ⟨_, rfl⟩

/-- A run already over its budget, and one step short of it that goes on, halts or fails. -/
theorem witness_ExecuteIsTheRunLoop :
    (budgetState 10#64 0 []).cfg.maxCycles.toNat ≤ (budgetState 10#64 0 []).cycle.toNat ∧
    ¬ (budgetState 9#64 0 []).cfg.maxCycles.toNat ≤ (budgetState 9#64 0 []).cycle.toNat ∧
    (hostStep (budgetState 9#64 0x00108093 [])).1 = .continues ∧
    (hostStep (budgetState 9#64 0x00000073 [(17#5, 93#32)])).1 = .halt 0#32 ∧
    (hostStep (budgetState 9#64 0x00100073 [])).1 = .error (.executionError .breakpoint) := by decide

/-- The three ends of a run. -/
theorem witness_RunEndsWithinBudget :
    (execute (budgetState 12#64 0 [])).1 = .error (.executionError .cycleLimit) ∧
    (execute (budgetState 9#64 0x00000073 [(17#5, 93#32)])).1 = .ok 0#32 ∧
    (execute (budgetState 9#64 0x00100073 [])).1 = .error (.executionError .breakpoint) := by decide

theorem witness_StatisticsAndProofFlag :
    State.reset.cfg.enableProofs = false ∧
    (construct { VmConfig.default with enableProofs := true }).cfg.enableProofs = true := by decide

/-! ### Assembler syntax and pseudo-instructions (spec/30_encoding.md R118, R119) -/

/-- The text the rules give beside each word: R213, R231, R199, R290, R271, R251. -/
theorem test_asmText :
    (decode 0xFFC02283#32).toOption.map asmText = some "lw x5, -4(x0)" ∧
    (decode 0x005100A3#32).toOption.map asmText = some "sb x5, 1(x2)" ∧
    (decode 0x40335293#32).toOption.map asmText = some "srai x5, x6, 3" ∧
    (decode 0x123452B7#32).toOption.map asmText = some "lui x5, 74565" ∧
    (decode 0x003280E7#32).toOption.map asmText = some "jalr x1, 3(x5)" ∧
    (decode 0xFE208CE3#32).toOption.map asmText = some "beq x1, x2, -8" := by decide

/-- A constant whose low twelve bits are negative carries into the upper part; one in range is a single addi; the words of
nop (R114), j (R270's example) and ret (R271). -/
theorem test_expand :
    expand (.li 5#5 0x12345FFF#32) = [.lui 5#5 0x12346000#32, .addi 5#5 5#5 (-1#32)] ∧
    expand (.li 5#5 (-2048#32)) = [.addi 5#5 0#5 (-2048#32)] ∧
    (expand .nop).map encode = [0x00000013#32] ∧ (expand (.j 0#32)).map encode = [0x0000006F#32] ∧
    (expand .ret).map encode = [0x00008067#32] := by decide

theorem witness_PseudoInstructionsCompute : State.reset.cfg.jalrLinkBeforeRead = false := by decide

end Sys2Proof.Tests
end

section
/-! SUPPORT. The statements about the state (spec/10_state.md), with the laws they share: decoded instructions are well
formed, what a given instruction can lead to, what a run keeps, and states that agree on what instructions read. -/

namespace Sys2Proof

/-! ### Decoded instructions are well formed (spec/30_encoding.md R110) -/

theorem decodeOp_wf {w : Word} {i : Instr} (h : decodeOp w = .ok i) : i.wf = true := by
  unfold decodeOp at h
  split_ifs at h <;> cases h <;> rfl

theorem decodeOpImm_wf {w : Word} {i : Instr} (h : decodeOpImm w = .ok i) : i.wf = true := by
  unfold decodeOpImm at h
  split_ifs at h <;> cases h <;> simp [Instr.wf, fitsImm12_immIOf]

theorem decodeLoad_wf {w : Word} {i : Instr} (h : decodeLoad w = .ok i) : i.wf = true := by
  unfold decodeLoad at h
  split_ifs at h <;> cases h <;> exact fitsImm12_immIOf w

theorem decodeStore_wf {w : Word} {i : Instr} (h : decodeStore w = .ok i) : i.wf = true := by
  unfold decodeStore at h
  split_ifs at h <;> cases h <;> exact fitsImm12_immSOf w

theorem decodeBranch_wf {w : Word} {i : Instr} (h : decodeBranch w = .ok i) : i.wf = true := by
  unfold decodeBranch at h
  split_ifs at h <;> cases h <;> exact fitsBranch_immBOf w

theorem decodeJalr_wf {w : Word} {i : Instr} (h : decodeJalr w = .ok i) : i.wf = true := by
  unfold decodeJalr at h
  split_ifs at h
  cases h
  exact fitsImm12_immIOf w

theorem decodeSystem_wf {w : Word} {i : Instr} (h : decodeSystem w = .ok i) : i.wf = true := by
  unfold decodeSystem at h
  split_ifs at h <;> cases h <;> rfl

/-- Every instruction a word decodes to is well formed. -/
theorem decode_wf {w : Word} {i : Instr} (h : decode w = .ok i) : i.wf = true := by
  unfold decode at h
  split_ifs at h
  · exact decodeOp_wf h
  · exact decodeOpImm_wf h
  · exact decodeLoad_wf h
  · exact decodeStore_wf h
  · exact decodeBranch_wf h
  · cases h; exact fitsJump_immJOf w
  · exact decodeJalr_wf h
  · cases h; exact fitsUpper_immUOf w
  · cases h; exact fitsUpper_immUOf w
  · exact decodeSystem_wf h

end Sys2Proof

namespace Sys2Proof.Machine

open Sys2Proof.Spec

/-! ### The shared operations, inverted -/

@[simp] theorem writeReg_zero (s : State) (v : Word) : writeReg s 0#5 v = s := rfl

/-- A store that succeeds replaced memory alone. -/
theorem storeBytes_ok {s t : State} {a : Word} {bs : List Byte} (h : storeBytes s a bs = .ok t) :
    t = { s with mem := s.mem.writeBytes a.toNat bs } := by
  by_cases hb : inBounds s a bs.length
  · rw [storeBytes_of_inBounds hb] at h
    cases h; rfl
  · rw [storeBytes_of_not_inBounds hb] at h
    cases h

/-- `set_register` that succeeds is a register write (spec/70_reset_and_hazards.md R387). -/
theorem setRegister_ok {s t : State} {i : Nat} {v : Word} (h : setRegister s i v = .ok t) :
    t = writeReg s (BitVec.ofNat 5 i) v := by
  unfold setRegister at h
  split at h <;> cases h
  rfl

theorem dropAnswer_hostAnswers (s : State) : (dropAnswer s).hostAnswers = s.hostAnswers.tail := by
  unfold dropAnswer; split <;> simp [*]

theorem dropAnswer_hostDraws (s : State) :
    (dropAnswer s).hostDraws = if s.hostAnswers = [] then s.hostDraws + 1 else s.hostDraws := by
  unfold dropAnswer; split <;> simp [*]

/-- An exit syscall writes no register, counts a cycle and halts with the code in x10 (spec/48_system.md R306). -/
theorem execEcall_of_exit {s : State} (h : readReg s a7 = 93#32) :
    execEcall s = .next (withHalt (advance s) (some (readReg s a0))) := by
  simp [execEcall, handleSyscall, h, syscallExit]

/-! ### What a given instruction can lead to

`NextShape` lists the next states of all instructions together; `NextOf` ties each to the instruction that leads there:
to its destination register and to its next PC. -/

/-- The next states instruction `i` can lead to from `s`. -/
inductive NextOf (i : Instr) (s : State) : State → Prop
  | register (rd : RegIdx) (v : Word) (hd : destination i = some rd) : NextOf i s (jump (writeReg s rd v) (nextPc i s))
  | store (m : Memory) (hi : isStore i = true) : NextOf i s (jump { s with mem := m } (nextPc i s))
  | control : NextOf i s (jump s (nextPc i s))
  | exit (hi : i = .ecall) : NextOf i s (withHalt (advance s) (some (readReg s a0)))
  | wrote (hi : i = .ecall) (fd : Word) (bs : List Byte) (v : Word) :
      NextOf i s (withHalt (advance (writeReg (dropAnswer (emit s fd bs)) a0 v)) none)
  | readNone (hi : i = .ecall) : NextOf i s (withHalt (advance (writeReg s a0 0#32)) none)

theorem writeAndAdvance_nextOf {i : Instr} {s t : State} {rd : RegIdx} {v : Word} (hd : destination i = some rd)
    (hp : nextPc i s = s.pc + 4#32) (h : writeAndAdvance s rd v = .next t) : NextOf i s t := by
  have ht : t = jump (writeReg s rd v) (nextPc i s) := by
    rw [writeAndAdvance] at h
    cases h
    rw [hp, advance, writeReg_pc]
  exact ht ▸ .register rd v hd

theorem loadInto_nextOf {i : Instr} {s t : State} {n : Nat} {ext : Word → Word} {rd rs1 : RegIdx} {imm : Word}
    (hd : destination i = some rd) (hp : nextPc i s = s.pc + 4#32) (h : loadInto n ext rd rs1 imm s = .next t) :
    NextOf i s t := by
  rcases loadInto_cases n ext rd rs1 imm s with ⟨-, hl⟩ | ⟨-, hl⟩
  · exact writeAndAdvance_nextOf hd hp (hl.symm.trans h)
  · rw [hl] at h
    cases h

theorem storeFrom_nextOf {i : Instr} {s t : State} {n : Nat} {rs1 rs2 : RegIdx} {imm : Word} (hi : isStore i = true)
    (hp : nextPc i s = s.pc + 4#32) (h : storeFrom n rs1 rs2 imm s = .next t) : NextOf i s t := by
  rcases storeFrom_cases n rs1 rs2 imm s with ⟨-, hl⟩ | ⟨-, hl⟩
  · rw [hl] at h
    cases h
    rw [advance, ← hp]
    exact .store _ hi
  · rw [hl] at h
    cases h

theorem branchOn_nextOf {i : Instr} {s t : State} {cond : Word → Word → Bool} {rs1 rs2 : RegIdx} {imm : Word}
    (hp : nextPc i s = if cond (readReg s rs1) (readReg s rs2) then s.pc + imm else s.pc + 4#32)
    (h : branchOn cond rs1 rs2 imm s = .next t) : NextOf i s t := by
  rw [branchOn_eq, ← hp] at h
  cases h
  exact .control

theorem execJalr_nextOf {rd rs1 : RegIdx} {imm : Word} {s t : State} (h : execJalr rd rs1 imm s = .next t) :
    NextOf (.jalr rd rs1 imm) s t := by
  have hp : nextPc (.jalr rd rs1 imm) s = jalrTarget
      (if s.cfg.jalrLinkBeforeRead then readReg (writeReg s rd (s.pc + 4#32)) rs1 else readReg s rs1) imm := by
    by_cases hr : rd = rs1
    · subst hr
      by_cases h0 : rd = 0#5 <;> simp [nextPc, jalrTarget, h0]
    · simp [nextPc, jalrTarget, hr, readReg_writeReg_of_ne s _ (Ne.symm hr)]
  rw [execJalr_eq, ← hp] at h
  cases h
  exact .register rd _ rfl

theorem execEcall_nextOf {s t : State} (h : execEcall s = .next t) : NextOf .ecall s t := by
  unfold execEcall at h
  rcases handleSyscall_cases s with hs | ⟨fd, bs, hs⟩ | hs | ⟨a, hs⟩ | ⟨r, hs⟩ <;> rw [hs] at h <;> cases h
  · exact .exit rfl
  · exact .wrote rfl fd bs _
  · exact .readNone rfl

/-- Everything an instruction that completes can lead to. -/
theorem exec_nextOf {i : Instr} {s t : State} (h : exec i s = .next t) : NextOf i s t := by
  cases i with
  | lb | lh | lw | lbu | lhu => exact loadInto_nextOf rfl rfl h
  | sb | sh | sw => exact storeFrom_nextOf rfl rfl h
  | beq => exact branchOn_nextOf (by simp [nextPc]) h
  | bne => exact branchOn_nextOf (by simp [nextPc]) h
  | blt => exact branchOn_nextOf (by simp [nextPc, signedLt, BitVec.slt]) h
  | bge rs1 rs2 imm =>
    exact branchOn_nextOf (cond := fun a b => !signedLt a b) (by simp [nextPc, signedLt, BitVec.slt]) h
  | bltu => exact branchOn_nextOf (by simp [nextPc, unsignedLt, BitVec.ult]) h
  | bgeu rs1 rs2 imm =>
    exact branchOn_nextOf (cond := fun a b => !unsignedLt a b) (by simp [nextPc, unsignedLt, BitVec.ult]) h
  | jal rd imm =>
    cases (show Host.Outcome.next _ = _ from h)
    exact .register rd _ rfl
  | jalr => exact execJalr_nextOf h
  | ecall => exact execEcall_nextOf h
  | ebreak => cases (show Host.Outcome.fault _ = _ from h)
  | _ => exact writeAndAdvance_nextOf rfl rfl h

/-- An instruction that completes goes on at `nextPc` (spec/40_execution_cycle.md R142). -/
theorem exec_pc {i : Instr} {s t : State} (h : exec i s = .next t) : t.pc = nextPc i s := by
  cases exec_nextOf h with
  | register | store | control => rfl
  | exit hi | readNone hi => subst hi; simp [nextPc]
  | wrote hi => subst hi; simp [nextPc]

/-- Registers other than the destination keep their value (spec/10_state.md R35). -/
theorem exec_readReg_of_ne_destination {i : Instr} {s t : State} (h : exec i s = .next t) {r : RegIdx}
    (hr : destination i ≠ some r) : readReg t r = readReg s r := by
  have ecall_ne (hi : i = .ecall) : r ≠ a0 := fun c => hr (by rw [hi, c]; rfl)
  cases exec_nextOf h with
  | register rd v hd =>
    have hne : r ≠ rd := fun c => hr (c ▸ hd)
    rw [readReg_jump, readReg_writeReg_of_ne s v hne]
  | store | control | exit => rfl
  | wrote hi fd bs v => simp [readReg_writeReg_of_ne _ v (ecall_ne hi)]
  | readNone hi => simp [readReg_writeReg_of_ne _ _ (ecall_ne hi)]

/-! ### The run loop keeps what a step keeps -/

section Keeps

variable {P : State → Prop}

/-- What a result's next state and the state after an error both keep, the host finds kept. -/
theorem hostView_keeps {s : State} {r : Result} (hs : P s) (hn : ∀ t, r = .next t → P t)
    (he : ∀ e, P (afterError s e)) : P (hostView s r).2 := by
  rcases hostView_cases s r with ⟨t, hr, hv⟩ | ⟨e, -, hv⟩ | ⟨q, -, hv⟩ <;> rw [hv]
  · exact hn t hr
  · exact he e
  · exact hs

theorem executeLoop_keeps (h : ∀ s, P s → P (hostStep s).2) (fuel : Nat) (s : State) (hs : P s) :
    P (executeLoop fuel s).2 := by
  induction fuel generalizing s with
  | zero => exact hs
  | succ fuel ih =>
    have hstep := h s hs
    rw [executeLoop]
    split
    · exact hs
    · generalize hostStep s = r at hstep
      obtain ⟨o, t⟩ := r
      cases o with
      | continues => exact ih t hstep
      | halt | error | refused => exact hstep

theorem execute_keeps (h : ∀ s, P s → P (hostStep s).2) {s : State} (hs : P s) : P (execute s).2 :=
  executeLoop_keeps h _ s hs

theorem executeWithProof_keeps (h : ∀ s, P s → P (hostStep s).2) {s : State} (hs : P s) :
    P (executeWithProof s).2 := by
  unfold executeWithProof
  split
  · exact execute_keeps h hs
  · exact hs

end Keeps

/-! ### Configuration and the state invariant -/

theorem NextShape.cfg_eq {s t : State} (h : NextShape s t) : t.cfg = s.cfg := by
  cases h <;> simp

/-- The invariant is about the configuration and memory alone. -/
theorem State.Inv.of_cfg_mem {s t : State} (hs : s.Inv) (hc : t.cfg = s.cfg) (hm : t.mem = s.mem) : t.Inv := by
  obtain ⟨hcfg, hwf, hin⟩ := hs
  exact ⟨hc ▸ hcfg, hm ▸ hwf, hc ▸ hm ▸ hin⟩

/-- Memory changes in a store alone, which keeps its form and its bounds. -/
theorem NextShape.inv {s t : State} (h : NextShape s t) (hs : s.Inv) : t.Inv := by
  cases h with
  | store a bs hb => exact (storeBytes_inv hs (storeBytes_of_inBounds hb)).of_cfg_mem rfl rfl
  | register | control | exit | wrote | readNone => exact hs.of_cfg_mem (by simp) (by simp)

theorem hostStep_cfg (s : State) : (hostStep s).2.cfg = s.cfg :=
  hostView_keeps (P := fun t => t.cfg = s.cfg) rfl (fun _ h => (step_next_shape h).cfg_eq) (afterError_cfg s)

theorem executeInstruction_cfg (i : Instr) (s : State) : (executeInstruction i s).2.cfg = s.cfg := by
  unfold executeInstruction
  split
  · exact hostView_keeps (P := fun t => t.cfg = s.cfg) rfl (fun _ h => (exec_next_shape h).cfg_eq) (afterError_cfg s)
  · rfl

theorem loadBinary_cfg {s t : State} {a : Word} {bs : List Byte} (h : loadBinary s a bs = .ok t) : t.cfg = s.cfg := by
  rw [storeBytes_ok h]

theorem loadSegments_cfg {s t : State} {segments : List (Word × List Byte)} (h : loadSegments s segments = .ok t) :
    t.cfg = s.cfg := by
  induction segments generalizing s with
  | nil => cases h; rfl
  | cons seg rest ih =>
    rw [loadSegments] at h
    split at h
    · rename_i u hu
      exact (ih h).trans (loadBinary_cfg hu)
    · cases h

theorem loadProgram_cfg {s t : State} {segments : List (Word × List Byte)} {entry : Word}
    (h : loadProgram s segments entry = .ok t) : t.cfg = s.cfg := by
  unfold loadProgram at h
  split at h
  · rename_i u hu
    cases h
    exact (setPc_cfg u entry).trans (loadSegments_cfg hu)
  · cases h

/-! ### PC stays even -/

/-- PC bit 0 is 0, as the statement of O46 writes it. -/
abbrev PcEven (s : State) : Prop := s.pc.toNat % 2 = 0

theorem toNat_mod_two_of_getLsbD_zero {w : Word} (h : w.getLsbD 0 = false) : w.toNat % 2 = 0 := by
  simpa [BitVec.getLsbD, Nat.testBit_zero] using h

theorem toNat_add_mod_two {a b : Word} (ha : a.toNat % 2 = 0) (hb : b.toNat % 2 = 0) : (a + b).toNat % 2 = 0 := by
  rw [BitVec.toNat_add]
  omega

/-- A jalr target has bit 0 cleared (spec/46_jumps.md R271). -/
theorem jalrTarget_even (base imm : Word) : (jalrTarget base imm).toNat % 2 = 0 :=
  toNat_mod_two_of_getLsbD_zero (by simp [jalrTarget])

/-- From an even PC a well-formed instruction goes on at an even one. -/
theorem nextPc_even {i : Instr} {s : State} (hw : i.wf = true) (hs : PcEven s) : (nextPc i s).toNat % 2 = 0 := by
  have next4 : (s.pc + 4#32).toNat % 2 = 0 := toNat_add_mod_two hs rfl
  cases i with
  | beq _ _ imm | bne _ _ imm | blt _ _ imm | bge _ _ imm | bltu _ _ imm | bgeu _ _ imm =>
    have taken := toNat_add_mod_two hs (toNat_mod_two_of_getLsbD_zero (fitsBranch_even hw))
    unfold nextPc
    dsimp only
    split
    · exact taken
    · exact next4
  | jal _ imm => exact toNat_add_mod_two hs (toNat_mod_two_of_getLsbD_zero (fitsJump_even hw))
  | jalr => exact jalrTarget_even _ _
  | _ => exact next4

theorem exec_pcEven {i : Instr} {s t : State} (hw : i.wf = true) (hs : PcEven s) (h : exec i s = .next t) : PcEven t := by
  rw [PcEven, exec_pc h]
  exact nextPc_even hw hs

theorem step_pcEven {s t : State} (hs : PcEven s) (h : step s = .next t) : PcEven t := by
  obtain ⟨w, i, -, hd, hi⟩ := step_next h
  exact exec_pcEven (decode_wf hd) hs hi

theorem afterError_pcEven {s : State} (hs : PcEven s) (e : Fault) : PcEven (afterError s e) := by
  rwa [PcEven, afterError_pc]

theorem hostStep_pcEven (s : State) (hs : PcEven s) : PcEven (hostStep s).2 :=
  hostView_keeps hs (fun _ => step_pcEven hs) (afterError_pcEven hs)

theorem executeInstruction_pcEven (i : Instr) {s : State} (hs : PcEven s) : PcEven (executeInstruction i s).2 := by
  unfold executeInstruction
  split
  · rename_i hw
    exact hostView_keeps hs (fun _ => exec_pcEven hw hs) (afterError_pcEven hs)
  · exact hs

/-! ### The first step after construction -/

/-- The zero word at address 0 is fetched after construction, and is no instruction (spec/70_reset_and_hazards.md R383). -/
theorem step_construct (c : VmConfig) : step (construct c) =
    .fault (if 4 ≤ c.memSize then .invalidInstruction 0#32 else .memoryViolation 0#32) := by
  have hb : inBounds (construct c) (construct c).pc 4 ↔ 4 ≤ c.memSize := by simp [inBounds, construct, State.reset]
  by_cases h : 4 ≤ c.memSize
  · have hm : (construct c).mem.readBytes (construct c).pc.toNat 4 = [0#8, 0#8, 0#8, 0#8] := rfl
    have hf : fetch (construct c) = .ok 0#32 := by rw [fetch_of_inBounds (hb.mpr h), hm]; decide
    have hd : decode 0#32 = .error (.invalidInstruction 0#32) := by decide
    simp [step, hf, hd, decodeFault, h]
  · have hf : fetch (construct c) = .error (.memoryViolation 0#32) := fetch_of_not_inBounds (fun hc => h (hb.mp hc))
    simp [step, hf, h]

end Sys2Proof.Machine

namespace Sys2Proof.Spec

open Sys2Proof.Machine

/-! ### States that agree on what an instruction may read (spec/10_state.md R40, R47) -/

section Agree

variable {s s' : State}

theorem AgreeOnInputs.readReg_eq (h : AgreeOnInputs s s') (r : RegIdx) : readReg s' r = readReg s r := by
  obtain ⟨hregs, -⟩ := h
  exact hregs r

theorem AgreeOnInputs.pc_eq (h : AgreeOnInputs s s') : s'.pc = s.pc := by
  obtain ⟨-, hpc, -⟩ := h
  exact hpc

theorem AgreeOnInputs.mem_eq (h : AgreeOnInputs s s') : s'.mem = s.mem := by
  obtain ⟨-, -, hmem, -⟩ := h
  exact hmem

theorem AgreeOnInputs.cfg_eq (h : AgreeOnInputs s s') : s'.cfg = s.cfg := by
  obtain ⟨-, -, -, hcfg, -⟩ := h
  exact hcfg

theorem AgreeOnInputs.hostAnswers_eq (h : AgreeOnInputs s s') : s'.hostAnswers = s.hostAnswers := by
  obtain ⟨-, -, -, -, hlist, -⟩ := h
  exact hlist

theorem AgreeOnInputs.hostDraws_eq (h : AgreeOnInputs s s') : s'.hostDraws = s.hostDraws := by
  obtain ⟨-, -, -, -, -, hdraws⟩ := h
  exact hdraws

/-! #### What agreeing states read is the same -/

theorem AgreeOnInputs.loadBytes_eq (h : AgreeOnInputs s s') (a : Word) (n : Nat) : loadBytes s' a n = loadBytes s a n := by
  simp only [loadBytes, inBounds, h.cfg_eq, h.mem_eq]

theorem AgreeOnInputs.memRead_eq (h : AgreeOnInputs s s') (a : Word) (n : Nat) : memRead s' a n = memRead s a n := by
  simp only [memRead, h.loadBytes_eq]

theorem AgreeOnInputs.fetch_eq (h : AgreeOnInputs s s') : fetch s' = fetch s := by
  simp only [fetch, h.pc_eq, h.memRead_eq]

theorem AgreeOnInputs.hostAnswer_eq (h : AgreeOnInputs s s') : hostAnswer s' = hostAnswer s := by
  simp only [hostAnswer, h.hostAnswers_eq, h.hostDraws_eq]

/-! #### The same update keeps them in agreement -/

theorem AgreeOnInputs.writeReg (h : AgreeOnInputs s s') (i : RegIdx) (v : Word) :
    AgreeOnInputs (writeReg s i v) (writeReg s' i v) :=
  ⟨fun r => by simp only [readReg_writeReg, h.readReg_eq], by simp [h.pc_eq], by simp [h.mem_eq], by simp [h.cfg_eq],
    by simp [h.hostAnswers_eq], by simp [h.hostDraws_eq]⟩

theorem AgreeOnInputs.jump (h : AgreeOnInputs s s') (t : Word) : AgreeOnInputs (jump s t) (jump s' t) :=
  ⟨h.readReg_eq, rfl, h.mem_eq, h.cfg_eq, h.hostAnswers_eq, h.hostDraws_eq⟩

theorem AgreeOnInputs.advance (h : AgreeOnInputs s s') : AgreeOnInputs (advance s) (advance s') := by
  unfold Machine.advance
  rw [h.pc_eq]
  exact h.jump _

theorem AgreeOnInputs.setMem (h : AgreeOnInputs s s') (m : Memory) :
    AgreeOnInputs { s with mem := m } { s' with mem := m } :=
  ⟨h.readReg_eq, h.pc_eq, rfl, h.cfg_eq, h.hostAnswers_eq, h.hostDraws_eq⟩

theorem AgreeOnInputs.withHalt (h : AgreeOnInputs s s') (o : Option Word) :
    AgreeOnInputs (withHalt s o) (withHalt s' o) :=
  ⟨h.readReg_eq, h.pc_eq, h.mem_eq, h.cfg_eq, h.hostAnswers_eq, h.hostDraws_eq⟩

theorem AgreeOnInputs.emit (h : AgreeOnInputs s s') (fd : Word) (bs : List Byte) :
    AgreeOnInputs (emit s fd bs) (emit s' fd bs) :=
  ⟨fun r => by simp [h.readReg_eq], by simp [h.pc_eq], by simp [h.mem_eq], by simp [h.cfg_eq], by simp [h.hostAnswers_eq],
    by simp [h.hostDraws_eq]⟩

theorem AgreeOnInputs.dropAnswer (h : AgreeOnInputs s s') : AgreeOnInputs (dropAnswer s) (dropAnswer s') :=
  ⟨fun r => by simp [h.readReg_eq], by simp [h.pc_eq], by simp [h.mem_eq], by simp [h.cfg_eq],
    by simp only [dropAnswer_hostAnswers, h.hostAnswers_eq], by simp only [dropAnswer_hostDraws, h.hostAnswers_eq, h.hostDraws_eq]⟩

/-! ### Agreeing states have agreeing results -/

/-- Two results that agree: the same error, or next states in agreement with the same outcome. -/
inductive ResultsAgree : Result → Result → Prop
  | next {t t' : State} (h : AgreeOnInputs t t') (hh : t'.halt = t.halt) : ResultsAgree (.next t) (.next t')
  | fault (e : Fault) : ResultsAgree (.fault e) (.fault e)

/-- Two answers of the syscall handler that agree. -/
inductive SyscallsAgree : SyscallAnswer → SyscallAnswer → Prop
  | ok {t t' : State} (o : Option Word) (h : AgreeOnInputs t t') : SyscallsAgree (.ok (o, t)) (.ok (o, t'))
  | error (e : Fault) : SyscallsAgree (.error e) (.error e)

theorem writeAndAdvance_agree (h : AgreeOnInputs s s') (rd : RegIdx) {v v' : Word} (hv : v' = v) :
    ResultsAgree (writeAndAdvance s rd v) (writeAndAdvance s' rd v') := by
  subst hv
  exact .next (h.writeReg rd v').advance rfl

theorem loadInto_agree (h : AgreeOnInputs s s') (n : Nat) (ext : Word → Word) (rd rs1 : RegIdx) (imm : Word) :
    ResultsAgree (loadInto n ext rd rs1 imm s) (loadInto n ext rd rs1 imm s') := by
  simp only [loadInto, effectiveAddress, h.readReg_eq, h.memRead_eq]
  split
  · exact writeAndAdvance_agree h rd rfl
  · exact .fault _

theorem storeFrom_agree (h : AgreeOnInputs s s') (n : Nat) (rs1 rs2 : RegIdx) (imm : Word) :
    ResultsAgree (storeFrom n rs1 rs2 imm s) (storeFrom n rs1 rs2 imm s') := by
  have hea : effectiveAddress s' rs1 imm = effectiveAddress s rs1 imm := by simp only [effectiveAddress, h.readReg_eq]
  have hin (a : Word) : inBounds s' a n ↔ inBounds s a n := by simp only [inBounds, h.cfg_eq]
  simp only [storeFrom, hea, h.readReg_eq]
  by_cases hb : inBounds s (effectiveAddress s rs1 imm) n
  · simp only [memWrite_of_inBounds hb, memWrite_of_inBounds ((hin _).mpr hb), h.mem_eq]
    exact .next (h.setMem _).advance rfl
  · simp only [memWrite_of_not_inBounds hb, memWrite_of_not_inBounds (mt (hin _).mp hb)]
    exact .fault _

theorem branchOn_agree (h : AgreeOnInputs s s') (cond : Word → Word → Bool) (rs1 rs2 : RegIdx) (imm : Word) :
    ResultsAgree (branchOn cond rs1 rs2 imm s) (branchOn cond rs1 rs2 imm s') := by
  simp only [branchOn_eq, h.readReg_eq, h.pc_eq]
  exact .next (h.jump _) rfl

theorem execJal_agree (h : AgreeOnInputs s s') (rd : RegIdx) (imm : Word) :
    ResultsAgree (execJal rd imm s) (execJal rd imm s') := by
  simp only [execJal, linkAddress, h.pc_eq]
  exact .next ((h.writeReg _ _).jump _) rfl

theorem execJalr_agree (h : AgreeOnInputs s s') (rd rs1 : RegIdx) (imm : Word) :
    ResultsAgree (execJalr rd rs1 imm s) (execJalr rd rs1 imm s') := by
  simp only [execJalr_eq, h.cfg_eq, h.pc_eq, h.readReg_eq, (h.writeReg rd _).readReg_eq]
  exact .next ((h.writeReg _ _).jump _) rfl

theorem syscallWrite_agree (h : AgreeOnInputs s s') : SyscallsAgree (syscallWrite s) (syscallWrite s') := by
  simp only [syscallWrite, h.readReg_eq, h.loadBytes_eq, h.hostAnswer_eq]
  split_ifs
  · split
    · split
      · exact .ok none ((h.emit _ _).dropAnswer.writeReg _ _)
      · exact .error _
    · exact .error _
  · exact .error _

theorem syscallRead_agree (h : AgreeOnInputs s s') : SyscallsAgree (syscallRead s) (syscallRead s') := by
  simp only [syscallRead, h.readReg_eq]
  split_ifs
  · exact .ok none (h.writeReg _ _)
  · exact .error _

theorem handleSyscall_agree (h : AgreeOnInputs s s') : SyscallsAgree (handleSyscall s) (handleSyscall s') := by
  simp only [handleSyscall, syscallExit, h.readReg_eq]
  split_ifs
  · exact .ok _ h
  · exact syscallWrite_agree h
  · exact syscallRead_agree h
  · exact .error _

theorem execEcall_agree (h : AgreeOnInputs s s') : ResultsAgree (execEcall s) (execEcall s') := by
  have hr := handleSyscall_agree h
  unfold execEcall
  generalize handleSyscall s = r, handleSyscall s' = r' at hr
  cases hr with
  | ok o ht => exact .next (ht.advance.withHalt o) rfl
  | error e => exact .fault e

theorem exec_agree (h : AgreeOnInputs s s') (i : Instr) : ResultsAgree (exec i s) (exec i s') := by
  cases i with
  | lb | lh | lw | lbu | lhu => exact loadInto_agree h _ _ _ _ _
  | sb | sh | sw => exact storeFrom_agree h _ _ _ _
  | beq | bne | blt | bltu => exact branchOn_agree h _ _ _ _
  | bge rs1 rs2 imm => exact branchOn_agree h (fun a b => !signedLt a b) rs1 rs2 imm
  | bgeu rs1 rs2 imm => exact branchOn_agree h (fun a b => !unsignedLt a b) rs1 rs2 imm
  | jal => exact execJal_agree h _ _
  | jalr => exact execJalr_agree h _ _ _
  | ecall => exact execEcall_agree h
  | ebreak => exact .fault _
  | _ => exact writeAndAdvance_agree h _ (by simp only [h.readReg_eq, h.pc_eq])

theorem step_agree (h : AgreeOnInputs s s') : ResultsAgree (step s) (step s') := by
  simp only [step, h.fetch_eq]
  split
  · exact .fault _
  · split
    · exact .fault _
    · exact exec_agree h _

end Agree

end Sys2Proof.Spec

namespace Sys2Proof.Proofs

open Sys2Proof.Machine Sys2Proof.Spec

/-! ### The statements -/

/-- Settles O44, by the shapes of a step's next state. -/
theorem stepKeepsInvariant : Obligations.StepKeepsInvariant :=
  fun _ _ hs h => (step_next_shape h).inv hs

/-- Settles O46, from the parity of `nextPc`; a run keeps what each of its steps keeps. -/
theorem pcStaysEven : Obligations.PcStaysEven := by
  intro s hs
  refine ⟨fun t => step_pcEven hs, hostStep_pcEven s hs, fun i => executeInstruction_pcEven i hs,
    execute_keeps hostStep_pcEven hs, executeWithProof_keeps hostStep_pcEven hs, rfl, fun t a bs h => ?_,
    fun t i v h => ?_, fun c => rfl⟩
  · rw [storeBytes_ok h]
    exact hs
  · rw [setRegister_ok h, writeReg_pc]
    exact hs

/-- Settles O49: the results of two steps in agreement agree, shown operation by operation. -/
theorem cycleAndStreamsAreNotRead : Obligations.CycleAndStreamsAreNotRead := by
  intro s s' h
  have hr := step_agree h
  refine ⟨fun t ht => ?_, fun e he => ?_⟩
  · rw [ht] at hr
    generalize step s' = r' at hr ⊢
    cases hr with
    | next hagree hhalt => exact ⟨_, rfl, hagree, hhalt⟩
  · rw [he] at hr
    generalize step s' = r' at hr ⊢
    cases hr
    rfl

/-- Settles O40: the registers an instruction leaves alone, and exit's next state. -/
theorem onlyTheDestinationIsWritten : Obligations.OnlyTheDestinationIsWritten := by
  intro i s t h
  refine ⟨fun r hr => exec_readReg_of_ne_destination h hr, fun hi hn r => ?_⟩
  subst hi
  cases (execEcall_of_exit hn).symm.trans h
  simp

/-- Settles O48, operation by operation; a run keeps what each of its steps keeps. -/
theorem configurationIsFixed : Obligations.ConfigurationIsFixed := by
  have keeps (c : VmConfig) (s : State) (h : s.cfg = c) : (hostStep s).2.cfg = c := (hostStep_cfg s).trans h
  refine ⟨fun s t h => (step_next_shape h).cfg_eq, hostStep_cfg, executeInstruction_cfg, fun s => rfl,
    fun s => execute_keeps (keeps s.cfg) rfl, fun s => executeWithProof_keeps (keeps s.cfg) rfl,
    fun s t segments entry => loadProgram_cfg, fun s t a bs => loadBinary_cfg, setPc_cfg, fun s t i v h => ?_,
    fun c => rfl⟩
  rw [setRegister_ok h, writeReg_cfg]

/-- Settles O50, by the read-after-write rules of the register file. -/
theorem registerFileReadsAndWrites : Obligations.RegisterFileReadsAndWrites :=
  fun s i v => ⟨readReg_zero s, ⟨readReg_writeReg_same s i v, fun _ => readReg_writeReg_of_ne s v⟩, writeReg_zero s v⟩

/-- Settles O51: the fields of the constructed state, and its first step. -/
theorem resetValues : Obligations.ResetValues :=
  ⟨fun c => ⟨readReg_reset, rfl, rfl, fun _ => rfl, rfl, rfl, rfl, step_construct c⟩, rfl⟩

end Sys2Proof.Proofs
end

section
/-! SUPPORT. The statements about memory (spec/20_memory.md), with the laws they share: the value of a byte string in plain
arithmetic, what an access reads after a store, and a register write as a whole effect. -/

namespace Sys2Proof.Machine

open Sys2Proof.Spec

/-! ### Byte strings in plain arithmetic (spec/20_memory.md R63) -/

/-- A byte in front of a byte string adds to 256 times its value, modulo 2^32. -/
theorem leWord_cons (b : Byte) (bs : List Byte) :
    leWord (b :: bs) = BitVec.ofNat 32 (b.toNat + 256 * (leWord bs).toNat) := by
  have disjoint : b.setWidth 32 &&& leWord bs <<< 8 = 0#32 := by
    ext i hi
    by_cases h : i < 8
    · simp [h]
    · simp [h, BitVec.getLsbD_of_ge b i (by omega)]
  rw [leWord, ← BitVec.add_eq_or_of_and_eq_zero _ _ disjoint]
  apply BitVec.eq_of_toNat_eq
  simp only [BitVec.toNat_add, BitVec.toNat_setWidth, BitVec.toNat_shiftLeft, BitVec.toNat_ofNat, Nat.shiftLeft_eq]
  omega

/-- The word of the bytes from an address up is their little-endian sum. -/
theorem leWord_readBytes (m : Memory) (a n : Nat) : leWord (m.readBytes a n) = BitVec.ofNat 32 (leSum m a n) := by
  induction n generalizing a with
  | zero => rfl
  | succ n ih =>
    rw [Memory.readBytes, leWord_cons, ih, leSum]
    apply BitVec.eq_of_toNat_eq
    simp only [BitVec.toNat_ofNat]
    omega

/-- The low `n` bytes of a word put together are the word modulo 256^n. -/
theorem leWord_leBytes (v : Word) (n : Nat) : leWord (leBytes v n) = BitVec.ofNat 32 (v.toNat % 256 ^ n) := by
  induction n generalizing v with
  | zero => simp [leBytes, leWord, Nat.mod_one]
  | succ n ih =>
    have split : v.toNat % 256 ^ (n + 1) = v.toNat % 256 + 256 * (v.toNat / 256 % 256 ^ n) := by
      rw [Nat.pow_succ', Nat.mod_mul]
    rw [leBytes, leWord_cons, ih, split]
    apply BitVec.eq_of_toNat_eq
    simp only [BitVec.toNat_ofNat, BitVec.toNat_setWidth, BitVec.toNat_ushiftRight, Nat.shiftRight_eq_div_pow,
      show 2 ^ 8 = 256 from rfl]
    generalize v.toNat / 256 % 256 ^ n = high
    omega

/-- Byte k of a word, as a quotient. -/
theorem leBytes_getElem_eq_div (v : Word) {n k : Nat} (h : k < n) :
    (leBytes v n)[k]'(by simpa using h) = BitVec.ofNat 8 (v.toNat / 256 ^ k) := by
  rw [leBytes_getElem v n k h, BitVec.extractLsb', Nat.shiftRight_eq_div_pow, Nat.pow_mul]

/-- The lowest byte of a word, zero-extended. -/
theorem zextByte_leWord_leBytes (v : Word) : zextByte (leWord (leBytes v 1)) = BitVec.ofNat 32 (v.toNat % 2 ^ 8) := by
  rw [leWord_leBytes]
  apply BitVec.eq_of_toNat_eq
  simp only [zextByte, BitVec.toNat_setWidth, BitVec.toNat_ofNat]
  omega

/-- The lowest two bytes of a word, zero-extended. -/
theorem zextHalf_leWord_leBytes (v : Word) : zextHalf (leWord (leBytes v 2)) = BitVec.ofNat 32 (v.toNat % 2 ^ 16) := by
  rw [leWord_leBytes]
  apply BitVec.eq_of_toNat_eq
  simp only [zextHalf, BitVec.toNat_setWidth, BitVec.toNat_ofNat]
  omega

/-! ### Reads after a store (spec/20_memory.md R66, R74) -/

/-- What a store that completes did. -/
theorem storeFrom_next {n : Nat} {rs1 rs2 : RegIdx} {imm : Word} {s t : State} (h : storeFrom n rs1 rs2 imm s = .next t) :
    inBounds s (readReg s rs1 + imm) n ∧
    t = advance { s with mem := s.mem.writeBytes (readReg s rs1 + imm).toNat (leBytes (readReg s rs2) n) } := by
  rcases storeFrom_cases n rs1 rs2 imm s with ⟨hb, hs⟩ | ⟨-, hs⟩ <;> rw [hs] at h <;> cases h
  exact ⟨hb, rfl⟩

/-- An access of the width and at the address of a store that completed reads the stored register's low bytes. -/
theorem memRead_of_storeFrom {n : Nat} {rs1 rs2 : RegIdx} {imm : Word} {s t : State} (hwf : s.mem.wf = true)
    (h : storeFrom n rs1 rs2 imm s = .next t) :
    memRead t (readReg s rs1 + imm) n = .ok (leWord (leBytes (readReg s rs2) n)) := by
  obtain ⟨hb, ht⟩ := storeFrom_next h
  have hbt : inBounds t (readReg s rs1 + imm) n := by rw [ht]; exact hb
  have hread := Memory.readBytes_writeBytes hwf (readReg s rs1 + imm).toNat (leBytes (readReg s rs2) n)
  rw [leBytes_length] at hread
  rw [memRead_of_inBounds hbt, ht, advance_mem, hread]

/-- The word a sw stores is what an access of four bytes at its address reads. -/
theorem memRead_of_execSw {rs1 rs2 : RegIdx} {imm : Word} {s t : State} (hwf : s.mem.wf = true)
    (h : execSw rs1 rs2 imm s = .next t) : memRead t (readReg s rs1 + imm) 4 = .ok (readReg s rs2) := by
  rw [memRead_of_storeFrom hwf h, leWord_leBytes_four]

/-- A load whose access is permitted writes the extended value. -/
theorem loadInto_of_memRead {n : Nat} {ext : Word → Word} {rd rs1 : RegIdx} {imm v : Word} {s : State}
    (h : memRead s (readReg s rs1 + imm) n = .ok v) : loadInto n ext rd rs1 imm s = writeAndAdvance s rd (ext v) := by
  simp only [loadInto, effectiveAddress, h]

/-! ### Whole effects -/

/-- An instruction that ends in a register write and an advance has that write as its whole effect. -/
theorem registerEffect_of_writeAndAdvance {i : Instr} {s : State} {rd : RegIdx} {v : Word}
    (h : exec i s = writeAndAdvance s rd v) : RegisterEffect i s rd v := by
  have hregs : WritesOnly s (advance (writeReg s rd v)) rd v :=
    ⟨readReg_writeReg_same s rd v, fun r hr => readReg_writeReg_of_ne s v hr⟩
  have hretires : Retires s (advance (writeReg s rd v)) (s.pc + 4#32) := ⟨by simp, by simp, rfl⟩
  have hmem : SameMem s (advance (writeReg s rd v)) := fun a => by simp
  have hhost : SameHost s (advance (writeReg s rd v)) := ⟨by simp, ⟨by simp, by simp⟩, by simp, by simp⟩
  exact ⟨_, h, hregs, hretires, hmem, hhost⟩

/-- A load of the width and at the address of a store that completed loads the stored register's low bytes, extended. -/
theorem loadInto_registerEffect_of_storeFrom {i : Instr} {n : Nat} {ext : Word → Word} {rs1 rs2 rd rb : RegIdx}
    {imm off : Word} {s t : State} (hi : exec i t = loadInto n ext rd rb off t) (hwf : s.mem.wf = true)
    (ha : readReg t rb + off = readReg s rs1 + imm) (h : storeFrom n rs1 rs2 imm s = .next t) :
    RegisterEffect i t rd (ext (leWord (leBytes (readReg s rs2) n))) :=
  registerEffect_of_writeAndAdvance (hi.trans (loadInto_of_memRead (ha ▸ memRead_of_storeFrom hwf h)))

/-! ### What an instruction leaves unchanged (spec/20_memory.md R71, spec/48_system.md R311) -/

/-- Only a store changes memory. -/
theorem exec_sameMem_of_not_isStore {i : Instr} {s t : State} (h : exec i s = .next t) (hi : isStore i = false) :
    SameMem s t := by
  intro a
  cases exec_nextOf h with
  | store m hs => rw [hs] at hi; cases hi
  | register | control | exit | wrote | readNone => simp

/-- Only ecall touches the streams and the host's coming answers. -/
theorem exec_sameStreams_of_ne_ecall {i : Instr} {s t : State} (h : exec i s = .next t) (hi : i ≠ .ecall) :
    SameStreams s t ∧ SameAnswers s t := by
  cases exec_nextOf h with
  | register => exact ⟨⟨by simp, by simp⟩, by simp, by simp⟩
  | store | control => exact ⟨⟨rfl, rfl⟩, rfl, rfl⟩
  | exit he | wrote he | readNone he => exact absurd he hi

theorem emit_stdout_grows (s : State) (fd : Word) (bs : List Byte) : s.stdout <+: (emit s fd bs).stdout := by
  rw [emit_stdout]
  split <;> simp

theorem emit_stderr_grows (s : State) (fd : Word) (bs : List Byte) : s.stderr <+: (emit s fd bs).stderr := by
  rw [emit_stderr]
  split <;> simp

/-- The streams only grow: a write syscall appends, and nothing else touches them. -/
theorem NextShape.streams_grow {s t : State} (h : NextShape s t) :
    s.stdout <+: t.stdout ∧ s.stderr <+: t.stderr := by
  cases h with
  | wrote fd bs v => simpa using And.intro (emit_stdout_grows s fd bs) (emit_stderr_grows s fd bs)
  | register | store | control | exit | readNone => simp

end Sys2Proof.Machine

namespace Sys2Proof.Proofs

open Sys2Proof.Machine Sys2Proof.Spec

/-! ### The statements -/

/-- Settles O21: the value of the bytes read, and each byte after the write. -/
theorem accessesAreLittleEndian : Obligations.AccessesAreLittleEndian := by
  intro s a n _ hb hwf
  refine ⟨by rw [memRead_of_inBounds hb, leWord_readBytes], fun v => ⟨_, memWrite_of_inBounds hb, fun k hk => ?_,
    fun b hout => ?_⟩⟩
  · exact (Memory.read_writeBytes_inside hwf _ _ (by simpa using hk)).trans (leBytes_getElem_eq_div v hk)
  · exact Memory.read_writeBytes_outside hwf _ _ (by simpa using hout)

/-- Settles O23, width by width: the load reads the stored register's low bytes. -/
theorem storeThenLoad : Obligations.StoreThenLoad := by
  intro s t rs1 rs2 rd rb imm off hwf ha
  refine ⟨fun h => ?_, fun h => ?_, fun h => ?_⟩
  · rw [← zextByte_leWord_leBytes]
    exact loadInto_registerEffect_of_storeFrom (ext := zextByte) rfl hwf ha h
  · rw [← zextHalf_leWord_leBytes]
    exact loadInto_registerEffect_of_storeFrom (ext := zextHalf) rfl hwf ha h
  · rw [← leWord_leBytes_four (readReg s rs2)]
    exact loadInto_registerEffect_of_storeFrom (ext := fun v => v) rfl hwf ha h

/-- Settles O24: a fetch is an access of four bytes at PC. -/
theorem storeSeenByNextFetch : Obligations.StoreSeenByNextFetch := by
  intro s t rs1 rs2 imm hwf h
  have hread := memRead_of_execSw hwf h
  refine ⟨hread, fun hpc => ?_⟩
  have ht : t.pc = readReg s rs1 + imm := (exec_pc h).trans hpc
  rw [fetch, ht, hread]

/-- Settles O37, by the two cases of the bounds check. -/
theorem fetchReadsTheWordAtPc : Obligations.FetchReadsTheWordAtPc := by
  intro s
  split
  · rename_i hb
    rw [fetch_of_inBounds hb, leWord_readBytes]
  · rename_i hb
    exact fetch_of_not_inBounds hb

/-- Settles O41, by the next states each instruction can lead to. -/
theorem onlyStoresWriteMemoryOnlyEcallWritesStreams : Obligations.OnlyStoresWriteMemoryOnlyEcallWritesStreams :=
  fun _ _ _ h => ⟨exec_sameMem_of_not_isStore h, exec_sameStreams_of_ne_ecall h, (exec_next_shape h).streams_grow⟩

/-- Settles O22, by the two cases of the bounds check. -/
theorem boundsCheckIsExact : Obligations.BoundsCheckIsExact := by
  intro s a w
  split
  · rename_i hb
    refine ⟨⟨_, loadBytes_of_inBounds hb, Memory.readBytes_length _ _ _⟩, fun bs hlen => ?_⟩
    subst hlen
    exact ⟨_, storeBytes_of_inBounds hb⟩
  · rename_i hb
    refine ⟨loadBytes_of_not_inBounds hb, fun bs hlen => ?_⟩
    subst hlen
    exact storeBytes_of_not_inBounds hb

end Sys2Proof.Proofs
end

section
/-! SUPPORT. The statements about encoding (spec/30_encoding.md), with the laws they share: decode and encode are inverse,
a word that matches a row of the opcode table decodes to that row's instruction, the immediates bit by bit, and what the
two-instruction expansions compute. -/

namespace Sys2Proof

open Sys2Proof.Spec Sys2Proof.Laws.EncodesTableRow

/-! ### Decode after encode (spec/30_encoding.md R117) -/

/-- A well-formed instruction survives encoding: the decoder reads back its fixed fields, its registers and, being in
range, its immediate. -/
theorem decode_encode {i : Instr} (h : i.wf = true) : decode (encode i) = .ok i := by
  cases i with
  | add | sub | sll | slt | sltu | xor | srl | sra | or | and => simp [encode, decode, decodeOp]
  | addi | slti | sltiu | xori | ori | andi => simp [encode, decode, decodeOpImm, encodeI_imm_of_fits h]
  | slli | srli | srai => simp [encode, decode, decodeOpImm]
  | lb | lh | lw | lbu | lhu => simp [encode, decode, decodeLoad, encodeI_imm_of_fits h]
  | sb | sh | sw => simp [encode, decode, decodeStore, encodeS_imm_of_fits h]
  | beq | bne | blt | bge | bltu | bgeu => simp [encode, decode, decodeBranch, encodeB_imm_of_fits h]
  | jal => simp [encode, decode, encodeJ_imm_of_fits h]
  | jalr => simp [encode, decode, decodeJalr, encodeI_imm_of_fits h]
  | lui | auipc => simp [encode, decode, encodeU_imm_of_fits h]
  | ecall | ebreak => rfl

/-! ### Encode after decode (spec/30_encoding.md R92, R108, R112) -/

/-- What a decode of `w` can answer: an instruction whose encoding is `w`, or InvalidInstruction of `w`. -/
inductive DecodeAnswer (w : Word) : Except DecodeError Instr → Prop where
  | ok {i : Instr} (h : encode i = w) : DecodeAnswer w (.ok i)
  | invalid : DecodeAnswer w (.error (.invalidInstruction w))

section DecodeAnswers

variable {w : Word}

theorem DecodeAnswer.ite {c : Prop} [Decidable c] {a b : Except DecodeError Instr} (ha : c → DecodeAnswer w a)
    (hb : DecodeAnswer w b) : DecodeAnswer w (if c then a else b) := by
  split
  case isTrue h => exact ha h
  case isFalse => exact hb

/-- One test of a field, which names the instruction. -/
theorem DecodeAnswer.test {c : Prop} [Decidable c] {i : Instr} {b : Except DecodeError Instr} (hi : c → encode i = w)
    (hb : DecodeAnswer w b) : DecodeAnswer w (if c then .ok i else b) := .ite (fun h => .ok (hi h)) hb

theorem decodeOp_answer (hop : opcodeOf w = 0x33#7) : DecodeAnswer w (decodeOp w) := by
  have hw := encodeR_of_fields w
  rw [hop] at hw
  refine .ite (fun h7 => ?_) (.ite (fun h7 => ?_) .invalid) <;> rw [h7] at hw
  · iterate 8 refine .test (fun h3 => by rwa [h3] at hw) ?_
    exact .invalid
  · iterate 2 refine .test (fun h3 => by rwa [h3] at hw) ?_
    exact .invalid

theorem decodeOpImm_answer (hop : opcodeOf w = 0x13#7) : DecodeAnswer w (decodeOpImm w) := by
  have hw := encodeI_of_fields w
  have hshift := encodeR_of_fields w
  rw [hop] at hw hshift
  unfold decodeOpImm
  iterate 6 refine .test (fun h3 => by rwa [h3] at hw) ?_
  refine .ite (fun h3 => ?_) (.ite (fun h3 => ?_) .invalid) <;> rw [h3] at hshift
  · exact .test (fun h7 => by rwa [h7] at hshift) .invalid
  · iterate 2 refine .test (fun h7 => by rwa [h7] at hshift) ?_
    exact .invalid

theorem decodeLoad_answer (hop : opcodeOf w = 0x03#7) : DecodeAnswer w (decodeLoad w) := by
  have hw := encodeI_of_fields w
  rw [hop] at hw
  unfold decodeLoad
  iterate 5 refine .test (fun h3 => by rwa [h3] at hw) ?_
  exact .invalid

theorem decodeStore_answer (hop : opcodeOf w = 0x23#7) : DecodeAnswer w (decodeStore w) := by
  have hw := encodeS_of_fields w
  rw [hop] at hw
  unfold decodeStore
  iterate 3 refine .test (fun h3 => by rwa [h3] at hw) ?_
  exact .invalid

theorem decodeBranch_answer (hop : opcodeOf w = 0x63#7) : DecodeAnswer w (decodeBranch w) := by
  have hw := encodeB_of_fields w
  rw [hop] at hw
  unfold decodeBranch
  iterate 6 refine .test (fun h3 => by rwa [h3] at hw) ?_
  exact .invalid

theorem decodeJalr_answer (hop : opcodeOf w = 0x67#7) : DecodeAnswer w (decodeJalr w) := by
  have hw := encodeI_of_fields w
  rw [hop] at hw
  exact .test (fun h3 => by rwa [h3] at hw) .invalid

theorem decodeSystem_answer (w : Word) : DecodeAnswer w (decodeSystem w) :=
  .test (fun hw => hw.symm) (.test (fun hw => hw.symm) .invalid)

/-- The word of an instruction is put together again from the fields the decoder read and the ones it compared. -/
theorem decode_answer (w : Word) : DecodeAnswer w (decode w) := by
  have hJ := encodeJ_of_fields w
  have hU := encodeU_of_fields w
  unfold decode
  refine .ite decodeOp_answer <| .ite decodeOpImm_answer <| .ite decodeLoad_answer <| .ite decodeStore_answer <|
    .ite decodeBranch_answer ?_
  refine .test (fun hop => by rwa [hop] at hJ) <| .ite decodeJalr_answer ?_
  iterate 2 refine .test (fun hop => by rwa [hop] at hU) ?_
  exact .ite (fun _ => decodeSystem_answer w) .invalid

end DecodeAnswers

theorem encode_of_decode {w : Word} {i : Instr} (h : decode w = .ok i) : encode i = w := by
  have hd := decode_answer w
  rw [h] at hd
  cases hd with
  | ok hi => exact hi

theorem decode_eq_invalid_of_not_ok {w : Word} (h : ¬ ∃ i, decode w = .ok i) :
    decode w = .error (.invalidInstruction w) := by
  have hd := decode_answer w
  generalize decode w = r at h hd ⊢
  cases hd with
  | ok => exact absurd ⟨_, rfl⟩ h
  | invalid => rfl

/-! ### Words that match a row of the opcode table (spec/30_encoding.md R108, R112, R113) -/

/-- The instruction of `i`'s row with its operands read from a word's fields. -/
def atFields (i : Instr) (w : Word) : Instr :=
  match i with
  | .add _ _ _ => .add (rdOf w) (rs1Of w) (rs2Of w)
  | .sub _ _ _ => .sub (rdOf w) (rs1Of w) (rs2Of w)
  | .sll _ _ _ => .sll (rdOf w) (rs1Of w) (rs2Of w)
  | .slt _ _ _ => .slt (rdOf w) (rs1Of w) (rs2Of w)
  | .sltu _ _ _ => .sltu (rdOf w) (rs1Of w) (rs2Of w)
  | .xor _ _ _ => .xor (rdOf w) (rs1Of w) (rs2Of w)
  | .srl _ _ _ => .srl (rdOf w) (rs1Of w) (rs2Of w)
  | .sra _ _ _ => .sra (rdOf w) (rs1Of w) (rs2Of w)
  | .or _ _ _ => .or (rdOf w) (rs1Of w) (rs2Of w)
  | .and _ _ _ => .and (rdOf w) (rs1Of w) (rs2Of w)
  | .addi _ _ _ => .addi (rdOf w) (rs1Of w) (immIOf w)
  | .slti _ _ _ => .slti (rdOf w) (rs1Of w) (immIOf w)
  | .sltiu _ _ _ => .sltiu (rdOf w) (rs1Of w) (immIOf w)
  | .xori _ _ _ => .xori (rdOf w) (rs1Of w) (immIOf w)
  | .ori _ _ _ => .ori (rdOf w) (rs1Of w) (immIOf w)
  | .andi _ _ _ => .andi (rdOf w) (rs1Of w) (immIOf w)
  | .slli _ _ _ => .slli (rdOf w) (rs1Of w) (shamtOf w)
  | .srli _ _ _ => .srli (rdOf w) (rs1Of w) (shamtOf w)
  | .srai _ _ _ => .srai (rdOf w) (rs1Of w) (shamtOf w)
  | .lb _ _ _ => .lb (rdOf w) (rs1Of w) (immIOf w)
  | .lh _ _ _ => .lh (rdOf w) (rs1Of w) (immIOf w)
  | .lw _ _ _ => .lw (rdOf w) (rs1Of w) (immIOf w)
  | .lbu _ _ _ => .lbu (rdOf w) (rs1Of w) (immIOf w)
  | .lhu _ _ _ => .lhu (rdOf w) (rs1Of w) (immIOf w)
  | .sb _ _ _ => .sb (rs1Of w) (rs2Of w) (immSOf w)
  | .sh _ _ _ => .sh (rs1Of w) (rs2Of w) (immSOf w)
  | .sw _ _ _ => .sw (rs1Of w) (rs2Of w) (immSOf w)
  | .beq _ _ _ => .beq (rs1Of w) (rs2Of w) (immBOf w)
  | .bne _ _ _ => .bne (rs1Of w) (rs2Of w) (immBOf w)
  | .blt _ _ _ => .blt (rs1Of w) (rs2Of w) (immBOf w)
  | .bge _ _ _ => .bge (rs1Of w) (rs2Of w) (immBOf w)
  | .bltu _ _ _ => .bltu (rs1Of w) (rs2Of w) (immBOf w)
  | .bgeu _ _ _ => .bgeu (rs1Of w) (rs2Of w) (immBOf w)
  | .jal _ _ => .jal (rdOf w) (immJOf w)
  | .jalr _ _ _ => .jalr (rdOf w) (rs1Of w) (immIOf w)
  | .lui _ _ => .lui (rdOf w) (immUOf w)
  | .auipc _ _ => .auipc (rdOf w) (immUOf w)
  | .ecall => .ecall
  | .ebreak => .ebreak

theorem atFields_wf (i : Instr) (w : Word) : (atFields i w).wf = true := by
  cases i with
  | add | sub | sll | slt | sltu | xor | srl | sra | or | and | slli | srli | srai | ecall | ebreak => rfl
  | addi | slti | sltiu | xori | ori | andi | lb | lh | lw | lbu | lhu | jalr => exact fitsImm12_immIOf w
  | sb | sh | sw => exact fitsImm12_immSOf w
  | beq | bne | blt | bge | bltu | bgeu => exact fitsBranch_immBOf w
  | jal => exact fitsJump_immJOf w
  | lui | auipc => exact fitsUpper_immUOf w

section FixedBits

variable {w m : Word} {f7 : BitVec 7} {f3 : BitVec 3} {op : BitVec 7}

theorem opcodeOf_of_mask {mask : Word} (h : w &&& mask = m) (hm : opcodeOf mask = BitVec.allOnes 7) :
    opcodeOf w = opcodeOf m := field_of_mask h 0 7 hm

theorem funct3Of_of_mask {mask : Word} (h : w &&& mask = m) (hm : funct3Of mask = BitVec.allOnes 3) :
    funct3Of w = funct3Of m := field_of_mask h 12 3 hm

theorem funct7Of_of_mask {mask : Word} (h : w &&& mask = m) (hm : funct7Of mask = BitVec.allOnes 7) :
    funct7Of w = funct7Of m := field_of_mask h 25 7 hm

theorem encodeR_of_row (h : w &&& 0xFE00707F#32 = m) (h7 : funct7Of m = f7) (h3 : funct3Of m = f3)
    (hop : opcodeOf m = op) : encodeR f7 f3 op (rdOf w) (rs1Of w) (rs2Of w) = w := by
  rw [← h7, ← h3, ← hop, ← funct7Of_of_mask h rfl, ← funct3Of_of_mask h rfl, ← opcodeOf_of_mask h rfl, encodeR_of_fields]

theorem encodeI_of_row (h : w &&& 0x0000707F#32 = m) (h3 : funct3Of m = f3) (hop : opcodeOf m = op) :
    encodeI f3 op (rdOf w) (rs1Of w) (immIOf w) = w := by
  rw [← h3, ← hop, ← funct3Of_of_mask h rfl, ← opcodeOf_of_mask h rfl, encodeI_of_fields]

theorem encodeS_of_row (h : w &&& 0x0000707F#32 = m) (h3 : funct3Of m = f3) (hop : opcodeOf m = op) :
    encodeS f3 op (rs1Of w) (rs2Of w) (immSOf w) = w := by
  rw [← h3, ← hop, ← funct3Of_of_mask h rfl, ← opcodeOf_of_mask h rfl, encodeS_of_fields]

theorem encodeB_of_row (h : w &&& 0x0000707F#32 = m) (h3 : funct3Of m = f3) (hop : opcodeOf m = op) :
    encodeB f3 op (rs1Of w) (rs2Of w) (immBOf w) = w := by
  rw [← h3, ← hop, ← funct3Of_of_mask h rfl, ← opcodeOf_of_mask h rfl, encodeB_of_fields]

theorem encodeU_of_row (h : w &&& 0x0000007F#32 = m) (hop : opcodeOf m = op) : encodeU op (rdOf w) (immUOf w) = w := by
  rw [← hop, ← opcodeOf_of_mask h rfl, encodeU_of_fields]

theorem encodeJ_of_row (h : w &&& 0x0000007F#32 = m) (hop : opcodeOf m = op) : encodeJ op (rdOf w) (immJOf w) = w := by
  rw [← hop, ← opcodeOf_of_mask h rfl, encodeJ_of_fields]

end FixedBits

/-- A word with the fixed bits of `i`'s row is the encoding of that row's instruction with the word's operands. -/
theorem encode_atFields {i : Instr} {w : Word} (h : w &&& rowMask i = rowMatch i) : encode (atFields i w) = w := by
  cases i <;> dsimp only [rowMask, rowMatch] at h
  case add | sub | sll | slt | sltu | xor | srl | sra | or | and | slli | srli | srai =>
    exact encodeR_of_row h rfl rfl rfl
  case addi | slti | sltiu | xori | ori | andi | lb | lh | lw | lbu | lhu | jalr => exact encodeI_of_row h rfl rfl
  case sb | sh | sw => exact encodeS_of_row h rfl rfl
  case beq | bne | blt | bge | bltu | bgeu => exact encodeB_of_row h rfl rfl
  case jal => exact encodeJ_of_row h rfl
  case lui | auipc => exact encodeU_of_row h rfl
  case ecall | ebreak => exact h.symm.trans (BitVec.and_allOnes (x := w))

/-- Every word with the fixed bits of `i`'s row decodes to that row's instruction with the word's operands. -/
theorem encodes_row (i : Instr) : Encodes (rowMask i) (rowMatch i) (atFields i) := by
  intro w h
  have hd := decode_encode (atFields_wf i w)
  rwa [encode_atFields h] at hd

/-- The other direction: an encoded word has its row's fixed bits. -/
theorem encode_and_rowMask (i : Instr) : encode i &&& rowMask i = rowMatch i := by
  cases i with
  | add | sub | sll | slt | sltu | xor | srl | sra | or | and | slli | srli | srai =>
    exact encodeR_fixed _ _ _ _ _ _
  | addi | slti | sltiu | xori | ori | andi | lb | lh | lw | lbu | lhu | jalr => exact encodeI_fixed _ _ _ _ _
  | sb | sh | sw => exact encodeS_fixed _ _ _ _ _
  | beq | bne | blt | bge | bltu | bgeu => exact encodeB_fixed _ _ _ _ _
  | jal => exact encodeJ_fixed _ _ _
  | lui | auipc => exact encodeU_fixed _ _ _
  | ecall | ebreak => rfl

/-- One instruction for each row of the table, in its order. -/
def rowInstrs : List Instr :=
  [.add 0 0 0, .sub 0 0 0, .sll 0 0 0, .slt 0 0 0, .sltu 0 0 0, .xor 0 0 0, .srl 0 0 0, .sra 0 0 0, .or 0 0 0,
   .and 0 0 0, .addi 0 0 0, .slti 0 0 0, .sltiu 0 0 0, .xori 0 0 0, .ori 0 0 0, .andi 0 0 0, .slli 0 0 0, .srli 0 0 0,
   .srai 0 0 0, .lb 0 0 0, .lh 0 0 0, .lw 0 0 0, .lbu 0 0 0, .lhu 0 0 0, .sb 0 0 0, .sh 0 0 0, .sw 0 0 0, .beq 0 0 0,
   .bne 0 0 0, .blt 0 0 0, .bge 0 0 0, .bltu 0 0 0, .bgeu 0 0 0, .jal 0 0, .jalr 0 0 0, .lui 0 0, .auipc 0 0, .ecall,
   .ebreak]

theorem tableRows_eq_map : tableRows = rowInstrs.map fun i => (rowMask i, rowMatch i) := rfl

theorem row_mem_tableRows (i : Instr) : (rowMask i, rowMatch i) ∈ tableRows := by
  cases i <;> simp [rowMask, rowMatch, tableRows]

/-- A word matches a row exactly when it decodes. -/
theorem matches_row_iff (w : Word) : (∃ row ∈ tableRows, w &&& row.1 = row.2) ↔ ∃ i, decode w = .ok i := by
  constructor
  · rintro ⟨row, hrow, hw⟩
    rw [tableRows_eq_map, List.mem_map] at hrow
    obtain ⟨i, -, rfl⟩ := hrow
    exact ⟨_, encodes_row i w hw⟩
  · rintro ⟨i, hi⟩
    have hw := encode_and_rowMask i
    rw [encode_of_decode hi] at hw
    exact ⟨_, row_mem_tableRows i, hw⟩

/-! ### The major opcode and the SYSTEM words (spec/30_encoding.md R107, R115) -/

theorem opcodeOf_toNat (w : Word) : (opcodeOf w).toNat = w.toNat % 128 := by
  simp [opcodeOf, field, BitVec.extractLsb'_toNat]

theorem opcodeOf_eq_iff (w : Word) (op : BitVec 7) : opcodeOf w = op ↔ w.toNat % 128 = op.toNat := by
  rw [← BitVec.toNat_inj, opcodeOf_toNat]

theorem decode_of_system {w : Word} (h : opcodeOf w = 0x73#7) : decode w = decodeSystem w := by simp [decode, h]

theorem decode_eq_ok_iff {w : Word} {i : Instr} (h : i.wf = true) : decode w = .ok i ↔ w = encode i :=
  ⟨fun hd => (encode_of_decode hd).symm, fun hw => hw ▸ decode_encode h⟩

/-! ### The immediates bit by bit (spec/30_encoding.md R93 to R98) -/

theorem fitsImm12_iff {imm : Word} : fitsImm12 imm = true ↔ -2048 ≤ imm.toInt ∧ imm.toInt ≤ 2047 := by
  simp [fitsImm12]

theorem fitsBranch_iff {imm : Word} :
    fitsBranch imm = true ↔ -4096 ≤ imm.toInt ∧ imm.toInt ≤ 4094 ∧ imm.toInt % 2 = 0 := by
  simp only [fitsBranch, Bool.and_eq_true, decide_eq_true_eq, and_assoc]

theorem fitsJump_iff {imm : Word} :
    fitsJump imm = true ↔ -1048576 ≤ imm.toInt ∧ imm.toInt ≤ 1048574 ∧ imm.toInt % 2 = 0 := by
  simp only [fitsJump, Bool.and_eq_true, decide_eq_true_eq, and_assoc]

theorem immIOf_eq_sshiftRight (w : Word) : immIOf w = w.sshiftRight 20 := by
  refine BitVec.eq_of_getLsbD_eq fun k hk => ?_
  simp only [immIOf, field, BitVec.getLsbD_signExtend, BitVec.getLsbD_sshiftRight, BitVec.msb_eq_getLsbD_last,
    BitVec.getLsbD_extractLsb']
  interval_cases k <;> simp

theorem immUOf_eq_and (w : Word) : immUOf w = w &&& 0xFFFFF000#32 := by
  refine BitVec.eq_of_getLsbD_eq fun k hk => ?_
  simp only [immUOf, field, BitVec.getLsbD_append, BitVec.getLsbD_extractLsb', BitVec.getLsbD_and]
  interval_cases k <;> simp

theorem shamtOf_toNat (w : Word) : (shamtOf w).toNat = w.toNat / 2 ^ 20 % 32 := by
  simp [shamtOf, field, BitVec.extractLsb'_toNat, Nat.shiftRight_eq_div_pow]

theorem immSOf_getLsbD (w : Word) (k : Nat) (hk : k < 32) : (immSOf w).getLsbD k =
    if k < 5 then w.getLsbD (k + 7) else if k < 12 then w.getLsbD (k + 20) else w.getLsbD 31 := by
  simp only [immSOf, field, BitVec.getLsbD_signExtend, BitVec.msb_eq_getLsbD_last, BitVec.getLsbD_append,
    BitVec.getLsbD_extractLsb']
  interval_cases k <;> simp

theorem immBOf_getLsbD (w : Word) (k : Nat) (hk : k < 32) : (immBOf w).getLsbD k =
    if k = 0 then false else if k < 5 then w.getLsbD (k + 7) else if k < 11 then w.getLsbD (k + 20)
      else if k = 11 then w.getLsbD 7 else w.getLsbD 31 := by
  simp only [immBOf, field, BitVec.getLsbD_signExtend, BitVec.msb_eq_getLsbD_last, BitVec.getLsbD_append,
    BitVec.getLsbD_extractLsb']
  interval_cases k <;> simp

theorem immJOf_getLsbD (w : Word) (k : Nat) (hk : k < 32) : (immJOf w).getLsbD k =
    if k = 0 then false else if k < 11 then w.getLsbD (k + 20) else if k = 11 then w.getLsbD 20
      else if k < 20 then w.getLsbD k else w.getLsbD 31 := by
  simp only [immJOf, field, BitVec.getLsbD_signExtend, BitVec.msb_eq_getLsbD_last, BitVec.getLsbD_append,
    BitVec.getLsbD_extractLsb']
  interval_cases k <;> simp

end Sys2Proof

namespace Sys2Proof.Spec

open Sys2Proof.Machine

/-! ### Frames of two instructions one after another -/

/-- Two writes to one register leave the second. -/
theorem WritesOnly.trans {s t u : State} {rd : RegIdx} {v v' : Word} (h : WritesOnly s t rd v)
    (h' : WritesOnly t u rd v') : WritesOnly s u rd v' := by
  obtain ⟨-, hother⟩ := h
  obtain ⟨hrd, hother'⟩ := h'
  exact ⟨hrd, fun r hr => (hother' r hr).trans (hother r hr)⟩

theorem SameMem.trans {s t u : State} (h : SameMem s t) (h' : SameMem t u) : SameMem s u :=
  fun a => (h' a).trans (h a)

end Sys2Proof.Spec

namespace Sys2Proof.Machine

open Sys2Proof.Spec

/-! ### Pseudo-instructions (spec/30_encoding.md R119) -/

/-- A mask that clears the low `n` bits rounds down to a multiple of 2^n. -/
theorem toNat_and_allOnes_shiftLeft (x : Word) (n : Nat) :
    (x &&& BitVec.allOnes 32 <<< n).toNat = x.toNat / 2 ^ n * 2 ^ n := by
  have hle := Nat.div_mul_le_self x.toNat (2 ^ n)
  rw [← BitVec.shiftLeft_ushiftRight, BitVec.toNat_shiftLeft, BitVec.toNat_ushiftRight, Nat.shiftRight_eq_div_pow,
    Nat.shiftLeft_eq, Nat.mod_eq_of_lt (hle.trans_lt x.isLt)]

theorem and_upper_toNat (x : Word) : (x &&& 0xFFFFF000#32).toNat = x.toNat / 4096 * 4096 :=
  toNat_and_allOnes_shiftLeft x 12

theorem jalrTarget_eq (base imm : Word) : jalrTarget base imm = BitVec.ofNat 32 ((base + imm).toNat / 2 * 2) := by
  have hnat : (jalrTarget base imm).toNat = (base + imm).toNat / 2 * 2 := toNat_and_allOnes_shiftLeft (base + imm) 1
  rw [← hnat, BitVec.ofNat_toNat, BitVec.setWidth_eq]

theorem fitsUpper_and (x : Word) : fitsUpper (x &&& 0xFFFFF000#32) = true := by
  rw [fitsUpper, and_upper_toNat, Nat.mul_mod_left, decide_eq_true rfl]

theorem fitsImm12_lo12 (v : Word) : fitsImm12 (lo12 v) = true := fitsImm12_of_signExtend _

/-- The low part has the low twelve bits of the whole. -/
theorem lo12_toNat_mod (v : Word) : (lo12 v).toNat % 4096 = v.toNat % 4096 := by
  have h : (lo12 v).setWidth 12 = v.setWidth 12 := by
    refine BitVec.eq_of_getLsbD_eq fun k hk => ?_
    simp only [lo12, BitVec.getLsbD_setWidth, BitVec.getLsbD_signExtend, hk, show k < 32 by omega, decide_true,
      Bool.true_and, if_true]
  simpa using congrArg BitVec.toNat h

/-- The high part makes up for the sign of the low one. -/
theorem hi20_add_lo12 (v : Word) : hi20 v + lo12 v = v := by
  have h := lo12_toNat_mod v
  apply BitVec.eq_of_toNat_eq
  rw [hi20, BitVec.toNat_add, and_upper_toNat, BitVec.toNat_sub]
  have := v.isLt
  have := (lo12 v).isLt
  omega

theorem addi_effect (rd rs1 : RegIdx) (imm : Word) (s : State) :
    RegisterEffect (.addi rd rs1 imm) s rd (readReg s rs1 + imm) := registerEffect_of_writeAndAdvance rfl

theorem lui_effect (rd : RegIdx) (imm : Word) (s : State) : RegisterEffect (.lui rd imm) s rd imm :=
  registerEffect_of_writeAndAdvance rfl

theorem auipc_effect (rd : RegIdx) (imm : Word) (s : State) : RegisterEffect (.auipc rd imm) s rd (s.pc + imm) :=
  registerEffect_of_writeAndAdvance rfl

/-- jalr under the recommended order of D13: the target reads x[rs1] before the link is written. -/
theorem exec_jalr_of_read_before_link (rd rs1 : RegIdx) (imm : Word) {s : State} (h : s.cfg.jalrLinkBeforeRead = false) :
    exec (.jalr rd rs1 imm) s =
      .next (jump (writeReg s rd (s.pc + 4#32)) (jalrTarget (readReg s rs1) imm)) := by
  simp [exec, execJalr_eq, h]

/-- An instruction that writes `v` to rd, then addi of `imm` to rd: `v + imm` in rd, eight bytes on. -/
theorem runsTo_addi {i : Instr} {s : State} {rd : RegIdx} {v : Word} (h : RegisterEffect i s rd v) (imm : Word) :
    ∃ t, RunsTo [i, .addi rd rd imm] s t ∧ WritesOnly s t rd (v + imm) ∧ SameMem s t ∧ t.pc = s.pc + 8#32 := by
  obtain ⟨t, ht, hregs, ⟨hpc, -⟩, hmem, -⟩ := h
  obtain ⟨u, hu, hregs', ⟨hpc', -⟩, hmem', -⟩ := addi_effect rd rd imm t
  obtain ⟨hrd, hother⟩ := hregs.trans hregs'
  refine ⟨u, ⟨t, ht, u, hu, rfl⟩, ⟨?_, hother⟩, hmem.trans hmem', ?_⟩
  · rw [hrd, hregs.1]
    split <;> rfl
  · rw [hpc', hpc, BitVec.add_assoc]
    rfl

/-- auipc, then jalr on its result: the jump to pc + off less its lowest bit, the link behind both. -/
theorem runsTo_call (off : Word) {s : State} (hcfg : s.cfg.jalrLinkBeforeRead = false) :
    ∃ t, RunsTo (expand (.call off)) s t ∧ WritesOnly s t 1#5 (s.pc + 8#32) ∧ SameMem s t ∧
      t.pc = BitVec.ofNat 32 ((s.pc + off).toNat / 2 * 2) := by
  obtain ⟨t, ht, hregs, ⟨hpc, -⟩, hmem, hcfg', -⟩ := auipc_effect 1#5 (hi20 off) s
  have hra : readReg t 1#5 = s.pc + hi20 off := hregs.1
  have hu := exec_jalr_of_read_before_link 1#5 1#5 (lo12 off) (hcfg' ▸ hcfg)
  rw [hra, jalrTarget_eq, BitVec.add_assoc, hi20_add_lo12, hpc, BitVec.add_assoc] at hu
  have hlink : WritesOnly t (writeReg t 1#5 (s.pc + 8#32)) 1#5 (s.pc + 8#32) :=
    ⟨readReg_writeReg_same t 1#5 _, fun r hr => readReg_writeReg_of_ne t _ hr⟩
  exact ⟨_, ⟨t, ht, _, hu, rfl⟩, hregs.trans hlink, hmem.trans fun a => by simp, rfl⟩

end Sys2Proof.Machine

namespace Sys2Proof.Proofs

open Sys2Proof.Machine Sys2Proof.Spec

/-! ### The statements -/

/-- Settles O1, by the instruction's format. -/
theorem decodeOfEncode : Obligations.DecodeOfEncode := fun _ h => decode_encode h

/-- Settles O2: what a decode answers is well formed, and its fields make up the whole word. -/
theorem decodedWordIsItsEncoding : Obligations.DecodedWordIsItsEncoding :=
  fun _ _ h => ⟨decode_wf h, encode_of_decode h⟩

/-- Settles O3: the words that match a row are the words that decode, and a failed decode answers the word. -/
theorem decodeAcceptsExactlyTheTable : Obligations.DecodeAcceptsExactlyTheTable := by
  intro w
  split
  · rename_i h
    exact (matches_row_iff w).mp h
  · rename_i h
    exact decode_eq_invalid_of_not_ok fun hd => h ((matches_row_iff w).mpr hd)

/-- Settles O4: each immediate by its layout, its range by its format. -/
theorem immediatesBitByBit : Obligations.ImmediatesBitByBit := fun w =>
  ⟨⟨immIOf_eq_sshiftRight w, fitsImm12_iff.mp (fitsImm12_immIOf w)⟩,
    ⟨immSOf_getLsbD w, fitsImm12_iff.mp (fitsImm12_immSOf w)⟩,
    ⟨immBOf_getLsbD w, fitsBranch_iff.mp (fitsBranch_immBOf w)⟩, immUOf_eq_and w,
    ⟨immJOf_getLsbD w, fitsJump_iff.mp (fitsJump_immJOf w)⟩, shamtOf_toNat w⟩

/-- Settles O59, expansion by expansion: the two parts of a constant add up to it. -/
theorem pseudoInstructionsCompute : Obligations.PseudoInstructionsCompute := by
  refine ⟨fun v => ⟨fitsImm12_lo12 v, fitsUpper_and _⟩, fun rd imm s => ?_, fun rd off s => ?_, fun off s =>
    runsTo_call off⟩
  · rw [expand]
    simp only [← fitsImm12_iff]
    split
    · obtain ⟨t, ht, hregs, ⟨hpc, -⟩, hmem, -⟩ := addi_effect rd 0#5 imm s
      rw [readReg_zero, BitVec.zero_add] at hregs
      exact ⟨t, ⟨t, ht, rfl⟩, hregs, hmem, hpc⟩
    · have h := runsTo_addi (lui_effect rd (hi20 imm) s) (lo12 imm)
      rwa [hi20_add_lo12] at h
  · have h := runsTo_addi (auipc_effect rd (hi20 off) s) (lo12 off)
    rwa [BitVec.add_assoc, hi20_add_lo12] at h

/-- Settles O5, by evaluation. -/
theorem exampleWordsDecode : Obligations.ExampleWordsDecode :=
  ⟨rfl, rfl, rfl, rfl, rfl, rfl, rfl, rfl, rfl, rfl, rfl, rfl, rfl, rfl⟩

/-- Settles O6: no test of the dispatch on the major opcode succeeds. -/
theorem otherOpcodesInvalid : Obligations.OtherOpcodesInvalid := by
  intro w h
  simp only [List.mem_cons, List.not_mem_nil, or_false, not_or] at h
  simp [decode, opcodeOf_eq_iff, h]

/-- Settles O7: a decode to either instruction gives its word back. -/
theorem systemWordsExact : Obligations.SystemWordsExact := by
  refine ⟨fun w => decode_eq_ok_iff rfl, fun w => decode_eq_ok_iff rfl, fun w h hecall hebreak => ?_⟩
  rw [decode_of_system ((opcodeOf_eq_iff w _).mpr h), decodeSystem, if_neg hecall, if_neg hebreak]

end Sys2Proof.Proofs
end

section
/-! SUPPORT. The statements about the execution cycle (spec/40_execution_cycle.md), with the laws they share: everything a
step and its host view can answer, what a completed instruction counts and answers, and the cases of the run loop. -/

namespace Sys2Proof

/-- The word itself is the offending word of a failed decode (spec/30_encoding.md R109). -/
theorem decode_error {w : Word} {e : DecodeError} (h : decode w = .error e) : e = .invalidInstruction w := by
  have hd := decode_answer w
  rw [h] at hd
  cases hd
  rfl

end Sys2Proof

namespace Sys2Proof.Machine

/-! ### Everything a step can answer (spec/40_execution_cycle.md R140) -/

section Step

variable {s : State} {w : Word}

theorem step_of_fetch_error {e : Fault} (hf : fetch s = .error e) : step s = .fault e := by simp [step, hf]

theorem step_of_decode_error {e : DecodeError} (hf : fetch s = .ok w) (hd : decode w = .error e) :
    step s = .fault (.invalidInstruction w) := by
  obtain rfl := decode_error hd
  simp [step, hf, hd, decodeFault]

/-- A step answers what its instruction answers, or an error of the fetch or of the decode. -/
theorem step_answer (s : State) : Answer s (step s) := by
  by_cases hb : inBounds s s.pc 4
  · obtain ⟨w, hf⟩ : ∃ w, fetch s = .ok w := ⟨_, fetch_of_inBounds hb⟩
    cases hd : decode w with
    | ok i =>
      rw [step_of_decode hf hd]
      exact exec_answer i s
    | error e =>
      rw [step_of_decode_error hf hd]
      exact .fault rfl
  · rw [step_of_fetch_error (fetch_of_not_inBounds hb)]
    exact .fault rfl

end Step

/-! ### What a completed instruction counts and answers (spec/40_execution_cycle.md R140, R142) -/

theorem NextShape.cycle_eq {s t : State} (h : NextShape s t) : t.cycle = s.cycle + 1#64 := by
  cases h <;> simp

theorem exec_halt_of_ne_ecall {i : Instr} {s t : State} (h : exec i s = .next t) (hi : i ≠ .ecall) : t.halt = none := by
  cases exec_nextOf h with
  | register | store | control => rfl
  | exit he | wrote he | readNone he => exact absurd he hi

theorem syscallWrite_continues {s t : State} {o : Option Word} (h : syscallWrite s = .ok (o, t)) : o = none := by
  unfold syscallWrite at h
  repeat' split at h
  all_goals cases h
  rfl

theorem syscallRead_continues {s t : State} {o : Option Word} (h : syscallRead s = .ok (o, t)) : o = none := by
  unfold syscallRead at h
  split at h <;> cases h
  rfl

/-- Only the exit syscall halts (spec/48_system.md R306). -/
theorem handleSyscall_continues {s t : State} {o : Option Word} (hn : readReg s a7 ≠ 93#32)
    (h : handleSyscall s = .ok (o, t)) : o = none := by
  rw [handleSyscall, if_neg hn] at h
  split_ifs at h
  · exact syscallWrite_continues h
  · exact syscallRead_continues h

theorem execEcall_halt_of_not_exit {s t : State} (hn : readReg s a7 ≠ 93#32) (h : execEcall s = .next t) :
    t.halt = none := by
  unfold execEcall at h
  split at h <;> cases h
  next hs => exact handleSyscall_continues hn hs

/-! ### The host's view of a result -/

section HostView

variable {s t : State}

theorem hostView_continues (s : State) (h : t.halt = none) : hostView s (.next t) = (.continues, t) := by
  simp [hostView, h]

theorem hostView_halt (s : State) {code : Word} (h : t.halt = some code) : hostView s (.next t) = (.halt code, t) := by
  simp [hostView, h]

/-- The host sees an error only of a result that is that error. -/
theorem hostView_error {r : Result} {e : Fault} (h : hostView s r = (.error e, t)) : t = afterError s e := by
  cases r with
  | next u =>
    cases hu : u.halt with
    | none => cases (hostView_continues s hu).symm.trans h
    | some code => cases (hostView_halt s hu).symm.trans h
  | fault e' => cases h; rfl
  | refused q => cases h

theorem executeInstruction_error {i : Instr} {e : Fault} (h : executeInstruction i s = (.error e, t)) :
    t = afterError s e := by
  cases hw : i.wf with
  | true => exact hostView_error ((executeInstruction_of_wf s hw).symm.trans h)
  | false => cases (executeInstruction_of_not_wf s hw).symm.trans h

/-- The streams at most grow in a failing step: by the bytes a failed host write left (spec/48_system.md R307). -/
theorem afterError_streams_grow (s : State) (e : Fault) :
    s.stdout <+: (afterError s e).stdout ∧ s.stderr <+: (afterError s e).stderr := by
  unfold afterError
  split
  · simpa using And.intro (emit_stdout_grows s _ _) (emit_stderr_grows s _ _)
  · simp

theorem afterError_of_not_hostIo (s : State) {e : Fault} (h : ∀ fd bs, e ≠ .syscallError (.hostIo fd bs)) :
    afterError s e = s := by
  unfold afterError
  split
  · exact absurd rfl (h _ _)
  · rfl

end HostView

/-- Everything `step()` can answer the host: it goes on or halts with one more cycle counted, or fails with an error of a
step. It never refuses. -/
theorem hostStep_cases (s : State) :
    (∃ t, hostStep s = (.continues, t) ∧ t.cfg = s.cfg ∧ t.cycle = s.cycle + 1#64) ∨
    (∃ code t, hostStep s = (.halt code, t) ∧ t.halt = some code ∧ t.cycle = s.cycle + 1#64) ∨
    ∃ e, hostStep s = (.error e, afterError s e) ∧ stepFault e = true := by
  have ha := step_answer s
  unfold hostStep
  generalize step s = r at ha ⊢
  cases ha with
  | @next t ht =>
    cases hh : t.halt with
    | none => exact .inl ⟨t, hostView_continues s hh, ht.cfg_eq, ht.cycle_eq⟩
    | some code => exact .inr (.inl ⟨code, t, hostView_halt s hh, hh, ht.cycle_eq⟩)
  | fault he => exact .inr (.inr ⟨_, rfl, he⟩)

/-! ### The run loop, case by case (spec/40_execution_cycle.md R146) -/

section RunLoop

variable {s t : State}

/-- Below the budget CYCLE does not wrap around. -/
theorem cycle_succ_toNat {c m : CycleCount} (h : c.toNat < m.toNat) : (c + 1#64).toNat = c.toNat + 1 := by
  bv_omega

theorem execute_of_budget_spent (h : s.cfg.maxCycles.toNat ≤ s.cycle.toNat) :
    execute s = (.error (.executionError .cycleLimit), s) := by
  rw [execute, Nat.sub_eq_zero_of_le h, executeLoop]

/-- Within the budget the loop has fuel for the next step. -/
theorem execute_eq_executeLoop_succ (h : s.cycle.toNat < s.cfg.maxCycles.toNat) :
    execute s = executeLoop (s.cfg.maxCycles.toNat - (s.cycle.toNat + 1) + 1) s := by
  rw [execute]
  congr 1
  omega

theorem execute_of_continues (h : s.cycle.toNat < s.cfg.maxCycles.toNat) (hs : hostStep s = (.continues, t))
    (hcfg : t.cfg = s.cfg) (hcycle : t.cycle = s.cycle + 1#64) : execute s = execute t := by
  rw [execute_eq_executeLoop_succ h, execute, hcfg, hcycle, cycle_succ_toNat h]
  simp [executeLoop, BitVec.le_def, h, hs]

theorem execute_of_halt {code : Word} (h : s.cycle.toNat < s.cfg.maxCycles.toNat) (hs : hostStep s = (.halt code, t)) :
    execute s = (.ok code, t) := by
  rw [execute_eq_executeLoop_succ h]
  simp [executeLoop, BitVec.le_def, h, hs]

theorem execute_of_error {e : Fault} (h : s.cycle.toNat < s.cfg.maxCycles.toNat) (hs : hostStep s = (.error e, t)) :
    execute s = (.error e, t) := by
  rw [execute_eq_executeLoop_succ h]
  simp [executeLoop, BitVec.le_def, h, hs]

end RunLoop

/-! ### How a run can end (spec/40_execution_cycle.md R147, R148) -/

/-- The ends of a run from `s`, with what CYCLE is there. -/
inductive RunEnd (s : State) : RunResult → State → Prop
  | limit {t : State} (hcycle : t.cycle.toNat = max s.cycle.toNat s.cfg.maxCycles.toNat) :
      RunEnd s (.error (.executionError .cycleLimit)) t
  | exit {t : State} {code : Word} (hhalt : t.halt = some code) (hafter : s.cycle.toNat < t.cycle.toNat)
      (hwithin : t.cycle.toNat ≤ s.cfg.maxCycles.toNat) : RunEnd s (.ok code) t
  | failed {t : State} {e : Fault} (he : stepFault e = true) (hfrom : s.cycle.toNat ≤ t.cycle.toNat)
      (hwithin : t.cycle.toNat < s.cfg.maxCycles.toNat) : RunEnd s (.error e) t

/-- A run that goes on from a step within the budget ends as the run after that step. -/
theorem RunEnd.of_continues {s t u : State} {r : RunResult} (h : s.cycle.toNat < s.cfg.maxCycles.toNat)
    (hcfg : t.cfg = s.cfg) (hcycle : t.cycle.toNat = s.cycle.toNat + 1) (hr : RunEnd t r u) : RunEnd s r u := by
  cases hr with
  | limit hc =>
    rw [hcfg, hcycle] at hc
    exact .limit (by omega)
  | exit hhalt hafter hwithin => exact .exit hhalt (by omega) (hcfg ▸ hwithin)
  | failed he hfrom hwithin => exact .failed he (by omega) (hcfg ▸ hwithin)

/-- By induction on the cycles left in the budget. -/
theorem execute_runEnd (s : State) : RunEnd s (execute s).1 (execute s).2 := by
  induction hn : s.cfg.maxCycles.toNat - s.cycle.toNat generalizing s with
  | zero =>
    rw [execute_of_budget_spent (by omega)]
    exact .limit (by dsimp only; omega)
  | succ n ih =>
    have hlt : s.cycle.toNat < s.cfg.maxCycles.toNat := by omega
    have hsucc := cycle_succ_toNat hlt
    rcases hostStep_cases s with ⟨t, hs, hcfg, hcycle⟩ | ⟨code, t, hs, hhalt, hcycle⟩ | ⟨e, hs, he⟩
    · rw [execute_of_continues hlt hs hcfg hcycle]
      rw [← hcycle] at hsucc
      exact (ih t (by rw [hcfg, hsucc]; omega)).of_continues hlt hcfg hsucc
    · rw [execute_of_halt hlt hs]
      rw [← hcycle] at hsucc
      exact .exit hhalt (by dsimp only; omega) (by dsimp only; omega)
    · rw [execute_of_error hlt hs]
      exact .failed he (by simp) (by simpa using hlt)

end Sys2Proof.Machine

namespace Sys2Proof.Proofs

open Sys2Proof.Machine Sys2Proof.Spec

/-! ### The statements -/

/-- Settles O38: the next PC of each instruction, and the one cycle every next state counts. -/
theorem completedInstructionRetires : Obligations.CompletedInstructionRetires :=
  fun _ _ _ h => ⟨exec_pc h, (exec_next_shape h).cycle_eq⟩

/-- Settles O39: exit's next state, and no halt in any other syscall or instruction. -/
theorem haltOnlyByExit : Obligations.HaltOnlyByExit := by
  intro i s t h
  by_cases hi : i = .ecall
  · subst hi
    by_cases hn : readReg s 17#5 = 93#32
    · cases (execEcall_of_exit hn).symm.trans h
      simp [hn, a0]
    · simp [hn, execEcall_halt_of_not_exit hn h]
  · simp [hi, exec_halt_of_ne_ecall h hi]

/-- Settles O43: what an error leaves, whichever of the two operations raised it. -/
theorem failingStepChangesNothing : Obligations.FailingStepChangesNothing := by
  intro s t e i h
  obtain rfl : t = afterError s e := h.elim hostView_error executeInstruction_error
  obtain ⟨hout, herr⟩ := afterError_streams_grow s e
  exact ⟨readReg_afterError s e, afterError_pc s e, afterError_cycle s e, afterError_mem s e, afterError_cfg s e, hout,
    herr, afterError_of_not_hostIo s⟩

/-- Settles O47: what decodes is well formed, and a well-formed record is decoded from its encoding. -/
theorem executeInstructionRunsDecodedInstructions : Obligations.ExecuteInstructionRunsDecodedInstructions := by
  refine ⟨fun s w i hd => ?_, fun s i hnot => ?_⟩
  · have hexec := executeInstruction_of_wf s (decode_wf hd)
    exact ⟨hexec, fun hf => by rw [hexec, hostStep, step_of_decode hf hd]⟩
  · have hw : i.wf = false := Bool.eq_false_iff.mpr fun hw => hnot (encode i) (decode_encode hw)
    exact executeInstruction_of_not_wf s hw

/-- Settles O56, by the budget check and then by what the step answers. -/
theorem executeIsTheRunLoop : Obligations.ExecuteIsTheRunLoop := by
  intro s
  split
  · rename_i h
    exact execute_of_budget_spent h
  · rename_i h
    have hlt := Nat.lt_of_not_le h
    rcases hostStep_cases s with ⟨t, hs, hcfg, hcycle⟩ | ⟨code, t, hs, -⟩ | ⟨e, hs, -⟩ <;> rw [hs]
    · exact execute_of_continues hlt hs hcfg hcycle
    · exact execute_of_halt hlt hs
    · exact execute_of_error hlt hs

/-- Settles O57, end by end. -/
theorem runEndsWithinBudget : Obligations.RunEndsWithinBudget := by
  intro s t r h
  have hend : RunEnd s r t := by simpa [h] using execute_runEnd s
  cases hend with
  | limit hc => exact ⟨by omega, by omega, .inl ⟨rfl, hc⟩⟩
  | exit hhalt hafter hwithin => exact ⟨by omega, by omega, .inr (.inl ⟨_, rfl, hhalt, hafter⟩)⟩
  | failed he hfrom hwithin => exact ⟨hfrom, by omega, .inr (.inr ⟨_, rfl, he, hwithin⟩)⟩

/-- Settles O36: the three ways of a step. -/
theorem stepRunsTheDecodedInstruction : Obligations.StepRunsTheDecodedInstruction :=
  ⟨fun _ _ _ => step_of_decode, fun _ _ _ => step_of_decode_error, fun _ _ => step_of_fetch_error⟩

/-- Settles O58, by the value of the flag. -/
theorem statisticsAndProofFlag : Obligations.StatisticsAndProofFlag :=
  fun _ => ⟨rfl, fun h => by simp [executeWithProof, h], fun h => by simp [executeWithProof, h]⟩

end Sys2Proof.Proofs
end

section
/-! SUPPORT. The statements about register arithmetic (spec/41_alu_register.md), with the laws they share: the ALU's
comparisons and shifts in plain arithmetic, and a register operation as a whole effect. -/

namespace Sys2Proof.Machine

open Sys2Proof.Spec

/-! ### The ALU in plain arithmetic (spec/41_alu_register.md R170) -/

/-- The mask of a shift's second operand is a remainder. -/
theorem shiftAmount_eq_mod (b : Word) : shiftAmount b = b.toNat % 32 := by
  rw [shiftAmount, BitVec.toNat_and]
  exact Nat.and_two_pow_sub_one_eq_mod b.toNat 5

theorem boolWord_decide (p : Prop) [Decidable p] : boolWord (decide p) = if p then 1#32 else 0#32 := by
  simp [boolWord]

theorem alu_slt (a b : Word) : alu .slt a b = if a.toInt < b.toInt then 1#32 else 0#32 := boolWord_decide _

theorem alu_sltu (a b : Word) : alu .sltu a b = if a.toNat < b.toNat then 1#32 else 0#32 := boolWord_decide _

theorem alu_sll (a b : Word) : alu .sll a b = a <<< (b.toNat % 32) := by rw [alu, shiftAmount_eq_mod]

theorem alu_srl (a b : Word) : alu .srl a b = a >>> (b.toNat % 32) := by rw [alu, shiftAmount_eq_mod]

theorem alu_sra (a b : Word) : alu .sra a b = a.sshiftRight (b.toNat % 32) := by rw [alu, shiftAmount_eq_mod]

theorem alu_sub_toNat (a b : Word) : (alu .sub a b).toNat = (a.toNat + (2 ^ 32 - b.toNat)) % 2 ^ 32 := by
  rw [alu, BitVec.toNat_sub, Nat.add_comm]

theorem alu_sll_toNat (a b : Word) : (alu .sll a b).toNat = a.toNat * 2 ^ (b.toNat % 32) % 2 ^ 32 := by
  rw [alu_sll, BitVec.toNat_shiftLeft, Nat.shiftLeft_eq]

theorem alu_srl_toNat (a b : Word) : (alu .srl a b).toNat = a.toNat / 2 ^ (b.toNat % 32) := by
  rw [alu_srl, BitVec.toNat_ushiftRight, Nat.shiftRight_eq_div_pow]

/-- An arithmetic shift right divides rounding down, as `Int`'s division by a positive number does. -/
theorem alu_sra_toInt (a b : Word) : (alu .sra a b).toInt = a.toInt / 2 ^ (b.toNat % 32) := by
  rw [alu_sra, BitVec.toInt_sshiftRight, Int.shiftRight_eq_div_pow, Nat.cast_pow, Nat.cast_ofNat]

/-! ### Register operations (spec/41_alu_register.md R172 to R181) -/

/-- An instruction that is an ALU operation on two registers has the ALU's result in rd as its whole effect. -/
theorem registerEffect_of_aluRegister {i : Instr} {op : AluOp} {rd rs1 rs2 : RegIdx} {s : State}
    (h : exec i s = aluRegister op rd rs1 rs2 s) : RegisterEffect i s rd (alu op (readReg s rs1) (readReg s rs2)) :=
  registerEffect_of_writeAndAdvance h

end Sys2Proof.Machine

namespace Sys2Proof.Proofs

open Sys2Proof.Machine Sys2Proof.Spec

/-! ### The statements -/

/-- Settles O8, operation by operation. -/
theorem aluTable : Obligations.AluTable := fun a b =>
  ⟨BitVec.toNat_add a b, alu_sub_toNat a b, alu_slt a b, alu_sltu a b, fun _ => BitVec.getLsbD_and,
    fun _ => BitVec.getLsbD_or, fun _ => BitVec.getLsbD_xor, alu_sll_toNat a b, alu_srl_toNat a b, alu_sra_toInt a b⟩

/-- Settles O9, by the rows of the two instructions and the ALU's sum and difference. -/
theorem addSubEffect : Obligations.AddSubEffect :=
  ⟨encodes_row (.add 0 0 0), encodes_row (.sub 0 0 0), fun _ _ _ _ =>
    ⟨registerEffect_of_aluRegister (op := .add) rfl, registerEffect_of_aluRegister (op := .sub) rfl⟩⟩

/-- Settles O10: the ALU's shift amount is the remainder by 32. -/
theorem registerShiftEffect : Obligations.RegisterShiftEffect := by
  refine ⟨encodes_row (.sll 0 0 0), encodes_row (.srl 0 0 0), encodes_row (.sra 0 0 0), fun rd rs1 rs2 s => ?_⟩
  rw [← alu_sll, ← alu_srl, ← alu_sra]
  exact ⟨registerEffect_of_aluRegister rfl, registerEffect_of_aluRegister rfl, registerEffect_of_aluRegister rfl⟩

/-- Settles O11: the ALU's comparisons are those of the signed and the unsigned values. -/
theorem registerCompareEffect : Obligations.RegisterCompareEffect := by
  refine ⟨encodes_row (.slt 0 0 0), encodes_row (.sltu 0 0 0), fun rd rs1 rs2 s => ?_⟩
  rw [← alu_slt, ← alu_sltu]
  exact ⟨registerEffect_of_aluRegister rfl, registerEffect_of_aluRegister rfl⟩

/-- Settles O12, by the rows of the three instructions and the ALU's bitwise operations. -/
theorem registerLogicEffect : Obligations.RegisterLogicEffect :=
  ⟨encodes_row (.xor 0 0 0), encodes_row (.or 0 0 0), encodes_row (.and 0 0 0), fun _ _ _ _ =>
    ⟨registerEffect_of_aluRegister (op := .xor) rfl, registerEffect_of_aluRegister (op := .or) rfl,
      registerEffect_of_aluRegister (op := .and) rfl⟩⟩

end Sys2Proof.Proofs
end

section
/-! SUPPORT. The statements about register-immediate arithmetic (spec/42_alu_immediate.md), with the laws they share: the
amount of an immediate shift, and an ALU operation with an immediate as a whole effect. -/

namespace Sys2Proof.Machine

open Sys2Proof.Spec

/-! ### Immediate operations (spec/42_alu_immediate.md R190 to R199) -/

/-- A five-bit amount reaches a shift whole (R98). -/
theorem shiftAmount_shamtWord (shamt : BitVec 5) : shiftAmount (shamtWord shamt) = shamt.toNat := by
  have hlt : shamt.toNat < 32 := shamt.isLt
  rw [shiftAmount_eq_mod, shamtWord, BitVec.toNat_setWidth_of_le (by decide), Nat.mod_eq_of_lt hlt]

/-- An instruction that is an ALU operation on a register and an immediate has the ALU's result in rd as its whole
effect. -/
theorem registerEffect_of_aluImmediate {i : Instr} {op : AluOp} {rd rs1 : RegIdx} {imm : Word} {s : State}
    (h : exec i s = aluImmediate op rd rs1 imm s) : RegisterEffect i s rd (alu op (readReg s rs1) imm) :=
  registerEffect_of_writeAndAdvance h

end Sys2Proof.Machine

namespace Sys2Proof.Proofs

open Sys2Proof.Machine Sys2Proof.Spec

/-! ### The statements -/

/-- Settles O13, by the instruction's row and the ALU's sum. -/
theorem addiEffect : Obligations.AddiEffect :=
  ⟨encodes_row (.addi 0 0 0), fun _ _ _ _ => registerEffect_of_aluImmediate (op := .add) rfl⟩

/-- Settles O14: the ALU's comparisons are those of the signed and the unsigned values. -/
theorem immediateCompareEffect : Obligations.ImmediateCompareEffect := by
  refine ⟨encodes_row (.slti 0 0 0), encodes_row (.sltiu 0 0 0), fun rd rs1 imm s => ?_⟩
  rw [← alu_slt, ← alu_sltu]
  exact ⟨registerEffect_of_aluImmediate rfl, registerEffect_of_aluImmediate rfl⟩

/-- Settles O15, by the rows of the three instructions and the ALU's bitwise operations. -/
theorem immediateLogicEffect : Obligations.ImmediateLogicEffect :=
  ⟨encodes_row (.xori 0 0 0), encodes_row (.ori 0 0 0), encodes_row (.andi 0 0 0), fun _ _ _ _ =>
    ⟨registerEffect_of_aluImmediate (op := .xor) rfl, registerEffect_of_aluImmediate (op := .or) rfl,
      registerEffect_of_aluImmediate (op := .and) rfl⟩⟩

/-- Settles O16: the ALU shifts by the whole of the five-bit amount. -/
theorem immediateShiftEffect : Obligations.ImmediateShiftEffect := by
  refine ⟨encodes_row (.slli 0 0 0), encodes_row (.srli 0 0 0), encodes_row (.srai 0 0 0), fun rd rs1 shamt s => ?_⟩
  rw [← shiftAmount_shamtWord]
  exact ⟨registerEffect_of_aluImmediate (op := .sll) rfl, registerEffect_of_aluImmediate (op := .srl) rfl,
    registerEffect_of_aluImmediate (op := .sra) rfl⟩

end Sys2Proof.Proofs
end

section
/-! SUPPORT. The statements about loads (spec/43_loads.md), with the laws they share: the extensions of a load in plain
arithmetic, and a load as a whole effect. -/

namespace Sys2Proof.Machine

open Sys2Proof.Spec

/-! ### The extensions of a load in plain arithmetic (spec/43_loads.md R211 to R215) -/

/-- The little-endian value of `n` bytes fits in `n` bytes. -/
theorem leSum_lt (m : Memory) (a n : Nat) : leSum m a n < 256 ^ n := by
  induction n generalizing a with
  | zero => exact Nat.one_pos
  | succ n ih =>
    have hhigh := ih (a + 1)
    have hlow : (m.read a).toNat < 256 := (m.read a).isLt
    rw [leSum, Nat.pow_succ]
    omega

/-- Extending the low bits of a word by its sign bit reads them as signed. -/
theorem signExtend_setWidth_ofNat {bits v : Nat} (hpos : 0 < bits) (hle : bits ≤ 32) (hv : v < 2 ^ bits) :
    ((BitVec.ofNat 32 v).setWidth bits).signExtend 32 = signedWord bits v := by
  have hnat : (BitVec.ofNat bits v).toNat = v := by rw [BitVec.toNat_ofNat, Nat.mod_eq_of_lt hv]
  have hsign : 2 * v < 2 ^ bits ↔ v < 2 ^ (bits - 1) := by
    have hpow := Nat.two_pow_pred_mul_two hpos
    omega
  rw [BitVec.setWidth_ofNat_of_le hle, BitVec.signExtend, BitVec.toInt_eq_toNat_cond, hnat, signedWord]
  simp only [hsign, Nat.cast_pow, Nat.cast_ofNat]

theorem sextByte_ofNat {v : Nat} (hv : v < 2 ^ 8) : sextByte (BitVec.ofNat 32 v) = signedWord 8 v :=
  signExtend_setWidth_ofNat (by decide) (by decide) hv

theorem sextHalf_ofNat {v : Nat} (hv : v < 2 ^ 16) : sextHalf (BitVec.ofNat 32 v) = signedWord 16 v :=
  signExtend_setWidth_ofNat (by decide) (by decide) hv

theorem zextByte_ofNat {v : Nat} (hv : v < 2 ^ 8) : zextByte (BitVec.ofNat 32 v) = BitVec.ofNat 32 v := by
  rw [zextByte, BitVec.setWidth_ofNat_of_le (by decide), BitVec.setWidth_ofNat_of_le_of_lt (by decide) hv]

theorem zextHalf_ofNat {v : Nat} (hv : v < 2 ^ 16) : zextHalf (BitVec.ofNat 32 v) = BitVec.ofNat 32 v := by
  rw [zextHalf, BitVec.setWidth_ofNat_of_le (by decide), BitVec.setWidth_ofNat_of_le_of_lt (by decide) hv]

/-! ### Whole effects (spec/43_loads.md R210) -/

/-- An instruction that is a load of `n` bytes has the load's effect, with the value its extension makes of the
little-endian sum of those bytes. -/
theorem loadEffect_of_loadInto {i : Instr} {n : Nat} {ext : Word → Word} {value : Nat → Word} {rd rs1 : RegIdx}
    {imm : Word} {s : State} (hext : ∀ {v}, v < 256 ^ n → ext (BitVec.ofNat 32 v) = value v)
    (hi : exec i s = loadInto n ext rd rs1 imm s) :
    LoadEffect i s n rd rs1 imm (value (leSum s.mem (effectiveAddress s rs1 imm).toNat n)) := by
  refine ⟨rfl, ?_⟩
  rw [effectiveAddress]
  rcases loadInto_cases n ext rd rs1 imm s with ⟨hb, hload⟩ | ⟨hb, hload⟩
  · rw [if_pos hb, ← hext (leSum_lt _ _ _), ← leWord_readBytes]
    exact registerEffect_of_writeAndAdvance (hi.trans hload)
  · rw [if_neg hb]
    exact hi.trans hload

end Sys2Proof.Machine

namespace Sys2Proof.Proofs

open Sys2Proof.Machine Sys2Proof.Spec

/-! ### The statements -/

/-- Settles O17, by the rows of the two instructions and the two extensions of a byte. -/
theorem loadByteEffect : Obligations.LoadByteEffect :=
  ⟨encodes_row (.lb 0 0 0), encodes_row (.lbu 0 0 0), fun _ _ _ _ =>
    ⟨loadEffect_of_loadInto sextByte_ofNat rfl, loadEffect_of_loadInto zextByte_ofNat rfl⟩⟩

/-- Settles O18, by the rows of the two instructions and the two extensions of a halfword. -/
theorem loadHalfEffect : Obligations.LoadHalfEffect :=
  ⟨encodes_row (.lh 0 0 0), encodes_row (.lhu 0 0 0), fun _ _ _ _ =>
    ⟨loadEffect_of_loadInto sextHalf_ofNat rfl, loadEffect_of_loadInto zextHalf_ofNat rfl⟩⟩

/-- Settles O19, by the instruction's row; a word is loaded as it stands. -/
theorem loadWordEffect : Obligations.LoadWordEffect :=
  ⟨encodes_row (.lw 0 0 0), fun _ _ _ _ => loadEffect_of_loadInto (ext := fun v => v) (fun _ => rfl) rfl⟩

end Sys2Proof.Proofs
end

section
/-! SUPPORT. The statement about stores (spec/44_stores.md), with the laws it needs: memory after the low bytes of a word are
written, and a store as a whole effect. -/

namespace Sys2Proof.Machine

open Sys2Proof.Spec

/-! ### Memory after a word's low bytes are written (spec/20_memory.md R63, R74) -/

/-- Byte `k` of the word stands at `a + k`. -/
theorem Memory.read_writeBytes_leBytes_inside {m : Memory} (hm : m.wf = true) (a : Nat) (v : Word) {n k : Nat} (hk : k < n) :
    Memory.read (m.writeBytes a (leBytes v n)) (a + k) = BitVec.ofNat 8 (v.toNat / 256 ^ k) :=
  (Memory.read_writeBytes_inside hm a _ (by simpa using hk)).trans (leBytes_getElem_eq_div v hk)

/-- A byte outside `[a, a + n)` reads as before. -/
theorem Memory.read_writeBytes_leBytes_outside {m : Memory} (hm : m.wf = true) {a n b : Nat} (v : Word)
    (hout : b < a ∨ a + n ≤ b) : Memory.read (m.writeBytes a (leBytes v n)) b = Memory.read m b :=
  Memory.read_writeBytes_outside hm a _ (by simpa using hout)

/-! ### Whole effects (spec/44_stores.md R230) -/

/-- An instruction that is a store of `n` bytes has the store's effect, in bounds and out. -/
theorem storeEffect_of_storeFrom {i : Instr} {n : Nat} {rs1 rs2 : RegIdx} {imm : Word} {s : State}
    (hi : exec i s = storeFrom n rs1 rs2 imm s) : StoreEffect i s n rs1 rs2 imm := by
  refine ⟨rfl, ?_⟩
  rw [effectiveAddress]
  rcases storeFrom_cases n rs1 rs2 imm s with ⟨hb, hstore⟩ | ⟨hb, hstore⟩
  · rw [if_pos hb]
    refine ⟨_, hi.trans hstore, fun r => by simp, ⟨rfl, rfl, rfl⟩, ⟨rfl, ⟨rfl, rfl⟩, rfl, rfl⟩, fun hwf => ⟨?_, ?_⟩⟩
    · exact fun k hk => Memory.read_writeBytes_leBytes_inside hwf _ _ hk
    · exact fun b hout => Memory.read_writeBytes_leBytes_outside hwf _ hout
  · rw [if_neg hb]
    exact hi.trans hstore

end Sys2Proof.Machine

namespace Sys2Proof.Proofs

open Sys2Proof.Machine Sys2Proof.Spec

/-! ### The statement -/

/-- Settles O20, by the rows of the three instructions and the store they share, at its three widths. -/
theorem storeEffects : Obligations.StoreEffects :=
  ⟨encodes_row (.sb 0 0 0), encodes_row (.sh 0 0 0), encodes_row (.sw 0 0 0), fun _ _ _ _ =>
    ⟨storeEffect_of_storeFrom rfl, storeEffect_of_storeFrom rfl, storeEffect_of_storeFrom rfl⟩⟩

end Sys2Proof.Proofs
end

section
/-! SUPPORT. The statements about conditional branches (spec/45_branches.md), with the laws they share: the comparisons of a
branch in plain arithmetic, and a branch as a whole effect. -/

namespace Sys2Proof.Machine

open Sys2Proof.Spec

/-! ### The comparisons in plain arithmetic (spec/45_branches.md R253 to R256) -/

theorem signedLt_iff {a b : Word} : signedLt a b = true ↔ a.toInt < b.toInt := BitVec.slt_iff_toInt_lt

theorem not_signedLt_iff {a b : Word} : (!signedLt a b) = true ↔ b.toInt ≤ a.toInt := by
  rw [Bool.not_eq_true', ← Bool.not_eq_true, signedLt_iff, not_lt]

theorem unsignedLt_iff {a b : Word} : unsignedLt a b = true ↔ a.toNat < b.toNat := BitVec.ult_iff_lt

theorem not_unsignedLt_iff {a b : Word} : (!unsignedLt a b) = true ↔ b.toNat ≤ a.toNat := by
  rw [Bool.not_eq_true', ← Bool.not_eq_true, unsignedLt_iff, not_lt]

/-! ### Whole effects (spec/45_branches.md R250) -/

/-- An instruction that is a branch on `cond` has, as its whole effect, the jump that `cond` decides. -/
theorem branchEffect_of_branchOn {i : Instr} {cond : Word → Word → Bool} {rs1 rs2 : RegIdx} {imm : Word} {s : State}
    {taken : Prop} [Decidable taken] (hcond : cond (readReg s rs1) (readReg s rs2) = true ↔ taken)
    (hi : exec i s = branchOn cond rs1 rs2 imm s) : BranchEffect i s taken imm := by
  have hnext : exec i s = .next (jump s (if taken then s.pc + imm else s.pc + 4#32)) := by
    simp only [hi, branchOn_eq, hcond]
  exact ⟨_, hnext, readReg_jump s _, ⟨rfl, rfl, rfl⟩, fun _ => rfl, rfl, ⟨rfl, rfl⟩, rfl, rfl⟩

end Sys2Proof.Machine

namespace Sys2Proof.Proofs

open Sys2Proof.Machine Sys2Proof.Spec

/-! ### The statements -/

/-- Settles O25, by the rows of the two instructions and the test of two words for equality. -/
theorem branchEqualEffect : Obligations.BranchEqualEffect :=
  ⟨encodes_row (.beq 0 0 0), encodes_row (.bne 0 0 0), fun _ _ _ _ =>
    ⟨branchEffect_of_branchOn beq_iff_eq rfl, branchEffect_of_branchOn bne_iff_ne rfl⟩⟩

/-- Settles O26, by the rows of the two instructions and the comparison of the signed values. -/
theorem branchSignedEffect : Obligations.BranchSignedEffect :=
  ⟨encodes_row (.blt 0 0 0), encodes_row (.bge 0 0 0), fun _ _ _ _ =>
    ⟨branchEffect_of_branchOn signedLt_iff rfl,
      branchEffect_of_branchOn (cond := fun a b => !signedLt a b) not_signedLt_iff rfl⟩⟩

/-- Settles O27, by the rows of the two instructions and the comparison of the unsigned values. -/
theorem branchUnsignedEffect : Obligations.BranchUnsignedEffect :=
  ⟨encodes_row (.bltu 0 0 0), encodes_row (.bgeu 0 0 0), fun _ _ _ _ =>
    ⟨branchEffect_of_branchOn unsignedLt_iff rfl,
      branchEffect_of_branchOn (cond := fun a b => !unsignedLt a b) not_unsignedLt_iff rfl⟩⟩

end Sys2Proof.Proofs
end

section
/-! SUPPORT. The statements about unconditional jumps (spec/46_jumps.md), with the laws they share: the register jalr adds
to, by the value of its open parameter, and a link and a jump as a whole effect. -/

namespace Sys2Proof.Machine

open Sys2Proof.Spec

/-! ### What jalr adds its immediate to (spec/46_jumps.md R271) -/

/-- Reading rs1 after the link is written differs from reading it before only when the link went to rs1 itself and that
is not x0. -/
theorem jalrBase_eq (rd rs1 : RegIdx) (link : Word) (s : State) :
    (if s.cfg.jalrLinkBeforeRead then readReg (writeReg s rd link) rs1 else readReg s rs1) =
      if s.cfg.jalrLinkBeforeRead = true ∧ rd = rs1 ∧ rd ≠ 0#5 then link else readReg s rs1 := by
  simp only [readReg_writeReg, ite_and, @eq_comm _ rs1 rd]

/-! ### Whole effects (spec/46_jumps.md R270, R271) -/

/-- The instruction completes; it writes pc + 4 to `rd` and goes on at `target`, and nothing else changes. -/
def LinkEffect (i : Instr) (s : State) (rd : RegIdx) (target : Word) : Prop :=
  ∃ t, exec i s = .next t ∧ WritesOnly s t rd (s.pc + 4#32) ∧ Retires s t target ∧ SameMem s t ∧ SameHost s t

/-- An instruction that ends in a write of the link and a jump has these as its whole effect. -/
theorem linkEffect_of_jump {i : Instr} {s : State} {rd : RegIdx} {target : Word}
    (h : exec i s = .next (jump (writeReg s rd (s.pc + 4#32)) target)) : LinkEffect i s rd target := by
  have hregs : WritesOnly s (jump (writeReg s rd (s.pc + 4#32)) target) rd (s.pc + 4#32) :=
    ⟨readReg_writeReg_same s rd _, fun r hr => readReg_writeReg_of_ne s _ hr⟩
  have hretires : Retires s (jump (writeReg s rd (s.pc + 4#32)) target) target := ⟨rfl, by simp, rfl⟩
  have hmem : SameMem s (jump (writeReg s rd (s.pc + 4#32)) target) := fun a => by simp
  have hhost : SameHost s (jump (writeReg s rd (s.pc + 4#32)) target) := ⟨by simp, ⟨by simp, by simp⟩, by simp, by simp⟩
  exact ⟨_, h, hregs, hretires, hmem, hhost⟩

theorem jal_effect (rd : RegIdx) (imm : Word) (s : State) : LinkEffect (.jal rd imm) s rd (s.pc + imm) :=
  linkEffect_of_jump rfl

theorem jalr_effect {rd rs1 : RegIdx} {base : Word} {s : State} (imm : Word)
    (hbase : base = if s.cfg.jalrLinkBeforeRead = true ∧ rd = rs1 ∧ rd ≠ 0#5 then s.pc + 4#32 else readReg s rs1) :
    LinkEffect (.jalr rd rs1 imm) s rd (BitVec.ofNat 32 ((base + imm).toNat / 2 * 2)) := by
  have hexec := execJalr_eq rd rs1 imm s
  rw [jalrBase_eq, ← hbase, jalrTarget_eq] at hexec
  exact linkEffect_of_jump hexec

end Sys2Proof.Machine

namespace Sys2Proof.Proofs

open Sys2Proof.Machine Sys2Proof.Spec

/-! ### The statements -/

/-- Settles O28, by the instruction's row and the link and jump that it is. -/
theorem jalEffect : Obligations.JalEffect := ⟨encodes_row (.jal 0 0), jal_effect⟩

/-- Settles O29, by the instruction's row and what jalr adds to for either value of the parameter. -/
theorem jalrEffect : Obligations.JalrEffect := ⟨encodes_row (.jalr 0 0 0), fun _ _ imm _ _ => jalr_effect imm⟩

end Sys2Proof.Proofs
end

section
/-! SUPPORT. The statement about upper-immediate instructions (spec/47_upper_immediate.md). -/

namespace Sys2Proof.Proofs

open Sys2Proof.Machine Sys2Proof.Spec

/-! ### The statement -/

/-- Settles O30, by the rows of the two instructions and their whole effects: the immediate itself (R290), and its sum
with the address of the instruction (R291). -/
theorem upperImmediateEffect : Obligations.UpperImmediateEffect :=
  ⟨encodes_row (.lui 0 0), encodes_row (.auipc 0 0), fun rd imm s => ⟨lui_effect rd imm s, auipc_effect rd imm s⟩⟩

end Sys2Proof.Proofs
end

section
/-! SUPPORT. The statements about ecall and ebreak (spec/48_system.md), with the laws they share: the answers of the syscall
handler case by case, what a host write leaves, and what the host sees of a failing instruction. -/

namespace Sys2Proof.Machine

open Sys2Proof.Spec

section System

variable {s : State}

/-! ### The syscall handler, number by number (spec/48_system.md R305 to R309) -/

theorem handleSyscall_of_write (h : readReg s a7 = 64#32) : handleSyscall s = syscallWrite s := by
  simp [handleSyscall, h]

theorem handleSyscall_of_read (h : readReg s a7 = 63#32) : handleSyscall s = syscallRead s := by
  simp [handleSyscall, h]

theorem handleSyscall_of_unknown (h93 : readReg s a7 ≠ 93#32) (h64 : readReg s a7 ≠ 64#32) (h63 : readReg s a7 ≠ 63#32) :
    handleSyscall s = .error (.syscallError (.unknownNumber (readReg s a7))) := by
  simp [handleSyscall, h93, h64, h63]

/-! ### The write syscall, check by check (spec/48_system.md R307, D15) -/

theorem syscallWrite_of_badFd (h1 : readReg s a0 ≠ 1#32) (h2 : readReg s a0 ≠ 2#32) :
    syscallWrite s = .error (.syscallError (.badFd (readReg s a0))) := by simp [syscallWrite, h1, h2]

theorem syscallWrite_of_not_inBounds (hfd : readReg s a0 = 1#32 ∨ readReg s a0 = 2#32)
    (hb : ¬ inBounds s (readReg s a1) (readReg s a2).toNat) :
    syscallWrite s = .error (.memoryViolation (readReg s a1)) := by
  rw [syscallWrite, if_pos hfd, loadBytes_of_not_inBounds hb]

/-- The bytes the handler reads are those of the buffer, in address order. -/
theorem readBytes_eq_byteString (s : State) (a n : Nat) : s.mem.readBytes a n = byteString s a n := by
  apply List.ext_getElem (by simp [byteString])
  intro k hk _
  rw [Memory.readBytes_getElem _ _ _ _ (by simpa using hk)]
  simp [byteString]

theorem loadBytes_eq_byteString {a : Word} {n : Nat} (h : inBounds s a n) :
    loadBytes s a n = .ok (byteString s a.toNat n) := by
  rw [loadBytes_of_inBounds h, readBytes_eq_byteString]

section InBounds

variable (hfd : readReg s a0 = 1#32 ∨ readReg s a0 = 2#32) (hb : inBounds s (readReg s a1) (readReg s a2).toNat)
include hfd hb

theorem syscallWrite_of_failed {k : Nat} (hh : hostAnswer s = .failed k) :
    syscallWrite s = .error (.syscallError (.hostIo (readReg s a0)
      ((byteString s (readReg s a1).toNat (readReg s a2).toNat).take k))) := by
  simp [syscallWrite, hfd, loadBytes_eq_byteString hb, hh]

theorem syscallWrite_of_ok (hh : hostAnswer s = .ok) :
    syscallWrite s = .ok (none, writeReg (dropAnswer (emit s (readReg s a0)
      (byteString s (readReg s a1).toNat (readReg s a2).toNat))) a0 (readReg s a2)) := by
  simp [syscallWrite, hfd, loadBytes_eq_byteString hb, hh]

end InBounds

/-! ### ecall by the handler's answer (spec/48_system.md R300, R302) -/

theorem execEcall_of_ok {o : Option Word} {t : State} (h : handleSyscall s = .ok (o, t)) :
    execEcall s = .next (withHalt (advance t) o) := by simp [execEcall, h]

theorem execEcall_of_error {e : Fault} (h : handleSyscall s = .error e) : execEcall s = .fault e := by
  simp [execEcall, h, raise]

/-- An ecall whose handler goes on after a register write is that write and an advance. -/
theorem execEcall_of_writeReg {t : State} {rd : RegIdx} {v : Word} (h : handleSyscall s = .ok (none, writeReg t rd v)) :
    execEcall s = writeAndAdvance t rd v := execEcall_of_ok h

/-- A register write is the only change to the registers where nothing before it changed one. -/
theorem writesOnly_writeReg {t : State} (h : SameRegs s t) (rd : RegIdx) (v : Word) :
    WritesOnly s (writeReg t rd v) rd v :=
  ⟨readReg_writeReg_same t rd v, fun r hr => (readReg_writeReg_of_ne t v hr).trans (h r)⟩

/-! ### What a host write leaves (spec/48_system.md R307) -/

/-- The bytes stand at the end of stream `fd`, the other stream is as before, and one host answer is used up. -/
def HostWrote (s t : State) (fd : Word) (bs : List Byte) : Prop :=
  t.stdout = s.stdout ++ (if fd = 1#32 then bs else []) ∧ t.stderr = s.stderr ++ (if fd = 2#32 then bs else []) ∧
  t.hostAnswers = s.hostAnswers.tail ∧ t.hostDraws = (if s.hostAnswers = [] then s.hostDraws + 1 else s.hostDraws)

theorem hostWrote_dropAnswer_emit (s : State) (fd : Word) (bs : List Byte) :
    HostWrote s (dropAnswer (emit s fd bs)) fd bs := by
  refine ⟨?_, ?_, by simp [dropAnswer_hostAnswers], by simp [dropAnswer_hostDraws]⟩
  · rw [dropAnswer_stdout, emit_stdout]
    split <;> simp
  · rw [dropAnswer_stderr, emit_stderr]
    split <;> simp

/-- The register write and the advance after it leave the streams and the answers alone. -/
theorem HostWrote.advance_writeReg {t : State} {fd : Word} {bs : List Byte} (h : HostWrote s t fd bs) (rd : RegIdx)
    (v : Word) : HostWrote s (advance (writeReg t rd v)) fd bs := by
  simpa [HostWrote] using h

/-! ### What the host sees of a failing instruction (spec/40_execution_cycle.md R144) -/

theorem executeInstruction_of_fault {i : Instr} {e : Fault} (hw : i.wf = true) (h : exec i s = .fault e) :
    executeInstruction i s = (.error e, afterError s e) := by
  rw [executeInstruction_of_wf s hw, h, hostView]

end System

end Sys2Proof.Machine

namespace Sys2Proof.Proofs

open Sys2Proof.Machine Sys2Proof.Spec

/-! ### The statements -/

/-- Settles O32, by the checks in their order: the descriptor, the buffer's bounds, the host's answer. -/
theorem ecallWrite : Obligations.EcallWrite := by
  rintro s _ _ _ hn rfl rfl rfl
  have hsyscall := handleSyscall_of_write hn
  by_cases hfd : readReg s 10#5 = 1#32 ∨ readReg s 10#5 = 2#32
  · rw [if_neg fun ⟨h1, h2⟩ => hfd.elim h1 h2]
    by_cases hb : inBounds s (readReg s 11#5) (readReg s 12#5).toNat
    · rw [if_neg (Nat.not_lt_of_le hb)]
      cases hh : hostAnswer s with
      | failed k =>
        have hexec := execEcall_of_error (hsyscall.trans (syscallWrite_of_failed hfd hb hh))
        exact ⟨hexec, _, executeInstruction_of_fault rfl hexec, readReg_afterError s _, afterError_pc s _,
          afterError_cycle s _, fun a => by rw [afterError_mem], afterError_cfg s _, hostWrote_dropAnswer_emit s _ _⟩
      | ok =>
        have hexec := execEcall_of_writeReg (hsyscall.trans (syscallWrite_of_ok hfd hb hh))
        exact ⟨_, hexec, writesOnly_writeReg (fun _ => by simp) _ _, ⟨by simp, by simp, rfl⟩, fun a => by simp, by simp,
          (hostWrote_dropAnswer_emit s _ _).advance_writeReg _ _⟩
    · rw [if_pos (Nat.lt_of_not_le hb)]
      exact execEcall_of_error (hsyscall.trans (syscallWrite_of_not_inBounds hfd hb))
  · have hbad : readReg s 10#5 ≠ 1#32 ∧ readReg s 10#5 ≠ 2#32 := not_or.mp hfd
    rw [if_pos hbad]
    obtain ⟨h1, h2⟩ := hbad
    exact execEcall_of_error (hsyscall.trans (syscallWrite_of_badFd h1 h2))

/-- Settles O33: descriptor 0 is a register write and an advance, any other an error of the handler. -/
theorem ecallRead : Obligations.EcallRead := by
  intro s hn
  have hsyscall := handleSyscall_of_read hn
  split_ifs with hfd
  · exact registerEffect_of_writeAndAdvance (execEcall_of_writeReg (hsyscall.trans (if_pos hfd)))
  · exact execEcall_of_error (hsyscall.trans (if_neg hfd))

/-- Settles O31: exit's next state, which halts with the code. -/
theorem ecallExit : Obligations.EcallExit := by
  intro s hn
  have hexec : exec .ecall s = .next (withHalt (advance s) (some (readReg s a0))) := execEcall_of_exit hn
  refine ⟨_, hexec, ?_, rfl, rfl, fun _ => rfl, fun _ => rfl, rfl, ⟨rfl, rfl⟩, rfl, rfl⟩
  rw [executeInstruction_of_wf s rfl, hexec]
  exact hostView_halt s rfl

/-- Settles O34: the handler's last case, and what its error leaves. -/
theorem ecallUnknownNumber : Obligations.EcallUnknownNumber := by
  intro s h93 h64 h63
  have hexec := execEcall_of_error (handleSyscall_of_unknown h93 h64 h63)
  exact ⟨hexec, executeInstruction_of_fault rfl hexec⟩

/-- Settles O35, by the instruction's row and what its error leaves. -/
theorem ebreakBreakpoint : Obligations.EbreakBreakpoint :=
  ⟨encodes_row .ebreak, fun _ => ⟨rfl, executeInstruction_of_fault rfl rfl⟩⟩

end Sys2Proof.Proofs
end

section
/-! SUPPORT. The statement about the errors of a step (spec/60_exceptions.md). -/

namespace Sys2Proof.Proofs

open Sys2Proof.Machine Sys2Proof.Spec

/-! ### The statement -/

/-- Settles O42, by everything a step can answer. -/
theorem stepOutcomesAreTheSpecs : Obligations.StepOutcomesAreTheSpecs := by
  intro s
  have hanswer := step_answer s
  unfold completes
  generalize step s = r at hanswer ⊢
  cases hanswer with
  | next => exact .inl ⟨_, rfl⟩
  | fault he => exact .inr ⟨_, rfl, he⟩

end Sys2Proof.Proofs
end

section
/-! SUPPORT. The statements about reset, loading and seeding (spec/70_reset_and_hazards.md), with the laws they share: the
invariant at construction, and what a load of a program changes. -/

namespace Sys2Proof.Machine

/-! ### Construction (spec/70_reset_and_hazards.md R380) -/

theorem construct_inv {c : VmConfig} (h : c.valid) : (construct c).Inv := ⟨h, rfl, rfl⟩

/-! ### Loading (spec/70_reset_and_hazards.md R384, R386) -/

/-- Segments that load replaced memory alone. -/
theorem loadSegments_ok {s t : State} {segments : List (Word × List Byte)} (h : loadSegments s segments = .ok t) :
    ∃ m, t = { s with mem := m } := by
  induction segments generalizing s with
  | nil => cases h; exact ⟨_, rfl⟩
  | cons seg rest ih =>
    rw [loadSegments] at h
    split at h
    · rename_i u hu
      obtain ⟨m, ht⟩ := ih h
      exact ⟨m, by rw [ht, storeBytes_ok hu]⟩
    · cases h

/-- A program that loads replaced memory and PC alone. -/
theorem loadProgram_ok {s t : State} {segments : List (Word × List Byte)} {entry : Word}
    (h : loadProgram s segments entry = .ok t) : ∃ m, t = setPc { s with mem := m } entry := by
  unfold loadProgram at h
  split at h
  · rename_i u hu
    cases h
    obtain ⟨m, hm⟩ := loadSegments_ok hu
    exact ⟨m, by rw [hm]⟩
  · cases h

/-! ### Seeding a register (spec/70_reset_and_hazards.md R387) -/

theorem setRegister_of_lt (s : State) {i : Nat} (v : Word) (h : i < 32) :
    setRegister s i v = .ok (writeReg s (BitVec.ofNat 5 i) v) := if_pos h

theorem setRegister_of_not_lt (s : State) {i : Nat} (v : Word) (h : ¬ i < 32) :
    setRegister s i v = .error (.invalidRegister i) := if_neg h

end Sys2Proof.Machine

namespace Sys2Proof.Proofs

open Sys2Proof.Machine Sys2Proof.Spec

/-! ### The statements -/

/-- Settles O53, by the two cases of the bounds check. -/
theorem loadBinaryPlacesBytes : Obligations.LoadBinaryPlacesBytes := by
  intro s addr bytes
  split_ifs with hb
  · refine ⟨_, storeBytes_of_inBounds hb, fun _ => rfl, rfl, rfl, ⟨rfl, ⟨rfl, rfl⟩, rfl, rfl⟩, fun hwf =>
      ⟨fun k b hk => ?_, fun a hout => Memory.read_writeBytes_outside hwf _ _ hout⟩⟩
    obtain ⟨hlt, hbyte⟩ := List.getElem?_eq_some_iff.mp hk
    exact (Memory.read_writeBytes_inside hwf _ _ hlt).trans hbyte
  · exact storeBytes_of_not_inBounds hb

/-- Settles O54: the recursion over the segments, and that a load replaces memory and PC alone. -/
theorem loadProgramFollowsTheLoaderContract : Obligations.LoadProgramFollowsTheLoaderContract := by
  refine fun s entry => ⟨rfl, fun a bs rest => ?_, fun segments t h => ?_⟩
  · cases hload : loadBinary s a bs <;> simp [loadProgram, loadSegments, hload]
  · obtain ⟨m, rfl⟩ := loadProgram_ok h
    exact ⟨rfl, fun _ => rfl, rfl, rfl, ⟨rfl, rfl⟩, rfl, rfl⟩

/-- Settles O45; the state after reset is the construction with the default configuration. -/
theorem resetMeetsInvariant : Obligations.ResetMeetsInvariant :=
  ⟨construct_inv (c := VmConfig.default) (by decide), fun _ => construct_inv⟩

/-- Settles O52: the register file after reset() is that of the reset state, and the other fields are by definition. -/
theorem resetOperation : Obligations.ResetOperation :=
  fun _ => ⟨readReg_reset, rfl, rfl, fun _ => rfl, rfl, rfl, rfl⟩

/-- Settles O55: set_pc replaces PC alone, and set_register is a register write or an error, by its index. -/
theorem seedingOperations : Obligations.SeedingOperations := by
  refine ⟨fun s v => ⟨rfl, rfl, fun _ => rfl, fun _ => rfl, rfl, ⟨rfl, rfl⟩, rfl, rfl⟩, fun s i v => ?_⟩
  split_ifs with hi
  · exact ⟨_, setRegister_of_lt s v hi, writesOnly_writeReg (fun _ => rfl) _ v, writeReg_pc s _ v, writeReg_cycle s _ v,
      fun a => by rw [writeReg_mem], writeReg_cfg s _ v, ⟨writeReg_stdout s _ v, writeReg_stderr s _ v⟩,
      writeReg_hostAnswers s _ v, writeReg_hostDraws s _ v⟩
  · exact setRegister_of_not_lt s v hi

end Sys2Proof.Proofs
end
